-- ==== Sys2Proof/Word.lean ====
section
/-! DEFINITION. The fixed-width values of the core (spec/00_scope.md R7, R11) and the names of the operand fields. -/

namespace Sys2Proof

/-- "an unsigned 32-bit integer" (R7). -/
abbrev Word := BitVec 32

/-- "an unsigned 64-bit integer, composed of two Words (high, low)" (R7); the high Word is bits 63:32 (R11). -/
abbrev HalfBlock := BitVec 64

/-- "an unsigned 128-bit integer, composed of two HalfBlocks (Left, Right)" (R7); Left is bits 127:64 (R11). -/
abbrev Block := BitVec 128

/-- "an unsigned 128-bit integer, composed of four Words (key0..key3)" (R7); key0 is bits 127:96 (R11). -/
abbrev Key := BitVec 128

/-- A substitution table's number t, the 2-bit field TSEL of a command (R24, R51). -/
abbrev TableNumber := BitVec 2

/-- The 8-bit index of one entry of a substitution table (R24). -/
abbrev TableIndex := BitVec 8

/-- The 0-based round index i passed to K, the 4-bit field RIDX of a command (R15, R52). -/
abbrev RoundIndex := BitVec 4

/-- The number j of a round constant RC(j), 1..16 (R25); RC(0) and RC(17) do not exist. -/
abbrev RoundNumber := { j : Nat // 1 ≤ j ∧ j ≤ 16 }

/-- Two Words (k0, k1) (R15). -/
structure RoundKeyPair where
  k0 : Word
  k1 : Word
  deriving DecidableEq, Repr

end Sys2Proof
end

