-- ==== Sys2Proof/Syntax.lean ====
section
/-! DEFINITION. The five commands of the core (spec/30_encoding.md R54), one constructor per row of the opcode map. -/

namespace Sys2Proof

/-- A legal command: a row of the opcode map R54 with its operand field. Every other operand comes from the registers
KEY and DIN (R53). The two operand fields have exactly the width of the command word's fields, so no ill-formed
command can be written down (R51: all four table numbers are legal; R52: all sixteen round indices are legal). -/
inductive Instr where
  /-- OPC 0x01: return entry DIN[7:0] of substitution table t (R65). -/
  | tlu (t : TableNumber)
  /-- OPC 0x02: return the confusion function of DIN[31:0] (R69). -/
  | g
  /-- OPC 0x03: return the round-key pair of KEY for round index i (R78). -/
  | ks (i : RoundIndex)
  /-- OPC 0x04: return the round function of the pair DIN[127:64] and the half-block DIN[63:0] (R85). -/
  | f
  /-- OPC 0x05: return the two-round Feistel transform of DIN under KEY (R96). -/
  | dec
  deriving DecidableEq, Repr

end Sys2Proof
end

