-- ==== Sys2Proof/WellFormed.lean ====
section
/-! DEFINITION. The checks a command must pass: on the fields of a raw command word (spec/30_encoding.md R49, R56) and
on a line of the assembler (R58). A value of `Instr` has passed them by its type. -/

namespace Sys2Proof

/-- The five fields of a command word (R49). -/
structure CmdFields where
  /-- bits 31:20, reserved, must be 0 -/
  res2 : BitVec 12
  /-- bits 19:16, the round index of KS, must be 0 for every other opcode -/
  ridx : RoundIndex
  /-- bits 15:10, reserved, must be 0 -/
  res1 : BitVec 6
  /-- bits 9:8, the table number of TLU, must be 0 for every other opcode -/
  tsel : TableNumber
  /-- bits 7:0, the opcode -/
  opc : BitVec 8
  deriving DecidableEq, Repr

/-- An OPC value that R54 lists: 0x01 to 0x05. -/
def CmdFields.opcAssigned (f : CmdFields) : Bool :=
  f.opc == 0x01 || f.opc == 0x02 || f.opc == 0x03 || f.opc == 0x04 || f.opc == 0x05

/-- No reserved bit is set (R56, third bullet). -/
def CmdFields.reservedClear (f : CmdFields) : Bool :=
  f.res1 == 0 && f.res2 == 0

/-- TSEL is nonzero only with OPC 0x01 (R56, fourth bullet). -/
def CmdFields.tselAllowed (f : CmdFields) : Bool :=
  f.tsel == 0 || f.opc == 0x01

/-- RIDX is nonzero only with OPC 0x03 (R56, fifth bullet). -/
def CmdFields.ridxAllowed (f : CmdFields) : Bool :=
  f.ridx == 0 || f.opc == 0x03

/-- A command word's fields are well formed when no bullet of R56 makes the word illegal. -/
def CmdFields.wellFormed (f : CmdFields) : Bool :=
  f.opcAssigned && f.reservedClear && f.tselAllowed && f.ridxAllowed

/-- The word an assembler line begins with (R58). -/
inductive AsmMnemonic where
  | tlu | g | ks | f | dec
  /-- `.cmd imm32`: any raw 32-bit command word, legal or not -/
  | rawCmd
  deriving DecidableEq, Repr

/-- A line of the assembler of R58: a mnemonic and its operand numbers as the line writes them. -/
structure AsmLine where
  mnemonic : AsmMnemonic
  operands : List Nat
  deriving DecidableEq, Repr

/-- "An assembler refuses TLU with t > 3, KS with i > 15, and an operand on G, F or DEC" (R58). A line with too few or
too many operands, and a `.cmd` number of more than 32 bits, has no form in R58's table and is refused too. -/
def AsmLine.wellFormed (a : AsmLine) : Bool :=
  match a.mnemonic, a.operands with
  | .tlu, [t] => t ≤ 3
  | .g, [] => true
  | .ks, [i] => i ≤ 15
  | .f, [] => true
  | .dec, [] => true
  | .rawCmd, [w] => w < 2 ^ 32
  | _, _ => false

end Sys2Proof
end

