-- ==== Sys2Proof/Decode.lean ====
section
/-! DEFINITION. From a 32-bit command word to a command and back (spec/30_encoding.md R49 to R58). The decoder is total
and names the reason when a word is illegal (R56). -/

namespace Sys2Proof

/-- Why a command word is illegal: the bullets of R56. -/
inductive Illegal where
  /-- OPC = 0x00 -/
  | opcZero
  /-- OPC in 0x06..0xFF -/
  | opcUnassigned
  /-- a nonzero bit in RES1 or RES2 -/
  | reservedBit
  /-- a nonzero TSEL with any OPC other than 0x01 -/
  | tselUnused
  /-- a nonzero RIDX with any OPC other than 0x03 -/
  | ridxUnused
  deriving DecidableEq, Repr

/-- The fields of a command word, at the bit positions of R49. -/
def fieldsOf (c : Word) : CmdFields :=
  { res2 := c.extractLsb' 20 12
    ridx := c.extractLsb' 16 4
    res1 := c.extractLsb' 10 6
    tsel := c.extractLsb' 8 2
    opc := c.extractLsb' 0 8 }

/-- The row of R54 that well-formed fields select; the opcode is known to be assigned where this is used. -/
def instrOf (f : CmdFields) : Instr :=
  if f.opc = 0x01 then .tlu f.tsel
  else if f.opc = 0x02 then .g
  else if f.opc = 0x03 then .ks f.ridx
  else if f.opc = 0x04 then .f
  else .dec

/-- The command a 32-bit word stands for, or the first bullet of R56 that makes it illegal. -/
def decode (c : Word) : Except Illegal Instr :=
  let f := fieldsOf c
  if f.opc = 0x00 then .error .opcZero
  else if !f.opcAssigned then .error .opcUnassigned
  else if !f.reservedClear then .error .reservedBit
  else if !f.tselAllowed then .error .tselUnused
  else if !f.ridxAllowed then .error .ridxUnused
  else .ok (instrOf f)

/-- The word of a command, as R58 writes it: `0x00000001 | (t << 8)`, `0x00000003 | (i << 16)`, and so on. -/
def encode : Instr → Word
  | .tlu t => 0x00000001#32 ||| (t.setWidth 32 <<< 8)
  | .g => 0x00000002#32
  | .ks i => 0x00000003#32 ||| (i.setWidth 32 <<< 16)
  | .f => 0x00000004#32
  | .dec => 0x00000005#32

/-- The match and mask columns of R54's row for a command. -/
def rowOf : Instr → Word × Word
  | .tlu _ => (0x00000001#32, 0xFFFFFCFF#32)
  | .g => (0x00000002#32, 0xFFFFFFFF#32)
  | .ks _ => (0x00000003#32, 0xFFF0FFFF#32)
  | .f => (0x00000004#32, 0xFFFFFFFF#32)
  | .dec => (0x00000005#32, 0xFFFFFFFF#32)

/-- "A command word `c` selects a row if `c & mask = match`" (R54). -/
def selectsRow (c : Word) (i : Instr) : Bool :=
  c &&& (rowOf i).2 == (rowOf i).1

/-- The word an assembler line stands for, if the assembler accepts it (R58). -/
def assemble (a : AsmLine) : Option Word :=
  if !a.wellFormed then none
  else match a.mnemonic, a.operands with
    | .tlu, [t] => some (encode (.tlu (BitVec.ofNat 2 t)))
    | .g, [] => some (encode .g)
    | .ks, [i] => some (encode (.ks (BitVec.ofNat 4 i)))
    | .f, [] => some (encode .f)
    | .dec, [] => some (encode .dec)
    | .rawCmd, [w] => some (BitVec.ofNat 32 w)
    | _, _ => none

/-- The command word whose low `nbits` bits are those of `w` and whose other bits are 0. A command is one 32-bit word
written to CMD; bus bit i is register bit i and no byte order shows (R35). -/
def tableWord (nbits w : Nat) : Word :=
  BitVec.ofNat 32 (w % 2 ^ nbits)

/-- The command this decoder reads from an instruction whose bits are `w`, numbered as spec/opcode_table.json numbers
them. -/
def decodeTableWord (nbits w : Nat) : Option Instr :=
  match decode (tableWord nbits w) with
  | .ok i => some i
  | .error _ => none

end Sys2Proof
end

