-- ==== Sys2Proof/Config.lean ====
section
/-! DEFINITION. What the spec leaves open for an implementation to fix (R8): four parameters without a body, so that
a claim about the model holds whatever they are. -/

namespace Sys2Proof.Config

/-- `P_T`: the contents of the four substitution tables (R8, R24, R64). The source gives none of the 1024 values, and
nothing may be assumed of them (R61, 91_not_in_source.md B5a). Assumption 3. -/
opaque pT : Fin 4 → Fin 256 → Word

/-- `P_RC`: the round constants RC(1)..RC(16) (R8, R25). The source gives none of the 16 values. Assumption 3. -/
opaque pRC : RoundNumber → Word

/-- `P_BASE / 64`: the base address is a multiple of 64 that the platform chooses (R33). Assumption 4. -/
opaque pBlock : Nat

/-- `P_BASE`, the base address of the register block, a multiple of 64 (R8, R33). -/
def pBase : Nat := 64 * pBlock

/-- `P_LATENCY`: the clock cycles an implementation takes to complete its n-th command, at least 0, which may differ
from command to command (R8, R124). The model is untimed: no definition reads it ("No rule of the model depends on
`P_LATENCY`"). Assumption 5. -/
opaque pLatency : Nat → Nat

end Sys2Proof.Config
end

