-- ==== Sys2Proof/Machine/State.lean ====
section
/-! DEFINITION. The state record of the core (spec/10_state.md R18), the host agent's side of the model, the reasons a
step can stop, and the state after reset (R31). -/

namespace Sys2Proof.Machine

open Sys2Proof

/-- A host-visible register word of the register block (spec/20_memory.md R32). Word w of a 128-bit register is bits
[127-32w : 96-32w] (R34). -/
inductive Reg where
  | key (w : Fin 4)
  | din (w : Fin 4)
  | dout (w : Fin 4)
  | cmd
  | status
  deriving DecidableEq, Repr

/-- One access of the host to its bus: a read or a write of `width` bytes at byte address `addr`. The written value is
that of a 32-bit access; for another width it does not matter, since the access is not admitted (R36). -/
inductive Access where
  | read (width addr : Nat)
  | write (width addr : Nat) (value : Word)
  deriving DecidableEq, Repr

/-- Which agent takes the next step (R9, R115): the host makes one access, the core takes a completion step, or the
platform resets the block. -/
inductive Turn where
  | host (a : Access)
  | core
  | reset
  deriving DecidableEq, Repr

/-- The read-only storage of the core (R24, R25, R41): the four substitution tables T(0)..T(3) of 256 Words each, and
the round constants, RC(j) at position j - 1. -/
structure Rom where
  tables : Vector (Vector Word 256) 4
  constants : Vector Word 16
  deriving DecidableEq, Repr

/-- The state of the machine. The first ten fields are the record of R18; the last two are the model's own and hold the
host agent's side (R9, R43; Assumptions 6 and 7). -/
structure State where
  /-- KEY, 128 bits, words KEY0..KEY3 (R19) -/
  key : Key
  /-- DIN, 128 bits, words DIN0..DIN3 (R20) -/
  din : Block
  /-- DOUT, 128 bits, words DOUT0..DOUT3 (R21) -/
  dout : Block
  /-- CMD, 32 bits (R22) -/
  cmd : Word
  /-- STATUS.BUSY, bit 0 of STATUS (R23) -/
  busy : Bool
  /-- STATUS.ERR, bit 1 of STATUS (R23); bits 31:2 are hardwired 0 and stored nowhere -/
  err : Bool
  /-- wr_KEY[0..3] (R30) -/
  wrKey : Vector Bool 4
  /-- wr_DIN[0..3] (R30) -/
  wrDin : Vector Bool 4
  /-- wr_DOUT[0..3] (R30) -/
  wrDout : Vector Bool 4
  /-- T and RC (R24, R25) -/
  rom : Rom
  /-- the model's own: the turns still to be taken, next first -/
  turns : List Turn
  /-- the model's own: the values the host's reads have returned, oldest first -/
  received : List Word
  deriving DecidableEq, Repr

/-- Why a step of the machine stops: the hazards of spec/60_exceptions.md R101, where "the spec fixes none" of what the
hardware does. A read of a word that nothing has written is no fault of the machine: there the hardware goes on (R99,
R100), and the spec's fault is that of `modelStep`, whose `ModelFault` is the closed set of R102 (Assumption 2). -/
inductive Fault where
  /-- R101: raised by a host write of CMD while BUSY = 1. Safe. -/
  | hazardCmdWrite
  /-- R101: raised by a host write of a word of KEY or DIN while BUSY = 1. Safe. -/
  | hazardOperandWrite
  /-- R101: raised by a host read of a word of DOUT while BUSY = 1. Safe. -/
  | hazardDoutRead
  deriving DecidableEq, Repr

/-- Why the model gives a turn no step. The last three are the `stuck` outcome of R97: "the access has no meaning in
the model and no step" (R36). -/
inductive Refusal where
  /-- Raised by an arm of `exec` without a meaning; no arm is so. Safe. -/
  | notModelled (mnemonic : String)
  /-- R36: raised by a host access that is not 4 bytes wide. Safe: the hardware's bus may do something here. -/
  | accessWidth
  /-- R36: raised by a 4-byte host access with (a - P_BASE) mod 4 ≠ 0. Safe: as above. -/
  | accessMisaligned
  /-- R36: raised by an aligned 4-byte host access at none of the fourteen offsets of R32 (the reserved offsets 0x38 to
  0x3F, and every address outside the block). Safe: as above. -/
  | accessNoRegister
  deriving DecidableEq, Repr

/-- The read-only storage of an implementation: `P_T` and `P_RC` (R24, R25, R31). -/
def Rom.ofConfig : Rom :=
  { tables := Vector.ofFn fun t => Vector.ofFn fun i => Config.pT t i
    constants := Vector.ofFn fun p => Config.pRC ⟨p.val + 1, by omega⟩ }

/-- The machine right after reset (R31): no command in flight, CMD and STATUS 0, every data word unwritten, the ROMs
holding their contents. The spec leaves the values of KEY, DIN and DOUT unspecified; the model names 0 (DESIGN CHOICE,
Assumption 1), and no turn is due and nothing has been received (Assumptions 6 and 7). -/
def State.reset : State :=
  { key := 0
    din := 0
    dout := 0
    cmd := 0x00000000#32
    busy := false
    err := false
    wrKey := Vector.replicate 4 false
    wrDin := Vector.replicate 4 false
    wrDout := Vector.replicate 4 false
    rom := Rom.ofConfig
    turns := []
    received := [] }

end Sys2Proof.Machine
end

