-- ==== Sys2Proof/Machine/Flags.lean ====
section
/-! DEFINITION. The flags of the core: the STATUS register's two bits (spec/10_state.md R23) and the wr_ bookkeeping
flags (R30). The core has no arithmetic flag (R28). -/

namespace Sys2Proof.Machine

/-- The word a read of STATUS returns: `zext_32(ERR ‖ BUSY)` (R37); bits 31:2 are hardwired 0 (R23). -/
def statusWord (busy err : Bool) : Word :=
  (BitVec.ofBool err ++ BitVec.ofBool busy).setWidth 32

/-- STATUS as the host reads it (R23, R37). -/
def State.status (s : State) : Word :=
  statusWord s.busy s.err

/-- What the issue of a command does to STATUS: BUSY <- 1, and ERR keeps its old value (R118). -/
def State.flagIssued (s : State) : State :=
  { s with busy := true }

/-- What a completion does to STATUS: BUSY <- 0, and ERR <- 1 for an illegal command, 0 for a legal one (R98, R119). -/
def State.flagCompleted (s : State) (illegal : Bool) : State :=
  { s with busy := false, err := illegal }

/-- A row of four wr_ flags with every flag 1. -/
def allWritten : Vector Bool 4 := Vector.replicate 4 true

/-- A row of four wr_ flags with every flag 0. -/
def noneWritten : Vector Bool 4 := Vector.replicate 4 false

end Sys2Proof.Machine
end

