-- ==== Sys2Proof/Machine/Ops.lean ====
section
/-! DEFINITION. The named operations over the state: the words of a 128-bit register (spec/20_memory.md R34), reads of
the ROMs (R41), writes of a register word (R38), issue (R118), the two ways a command completes (R98, R119), and reset
(R115). The core has no exception entry and no return from one (R106, R107): an illegal command's completion is its
only error, and `State.completeIllegal` is that one shared operation. -/

namespace Sys2Proof.Machine

open Sys2Proof

/-- Word w of a 128-bit register: bits [127-32w : 96-32w] (R34). -/
def getWord (q : BitVec 128) (w : Fin 4) : Word :=
  q.extractLsb' (96 - 32 * w.val) 32

/-- A 128-bit register with word w replaced: `Q[127-32w : 96-32w] <- v` (R38). -/
def putWord (q : BitVec 128) (w : Fin 4) (v : Word) : BitVec 128 :=
  match w with
  | 0 => v ++ q.extractLsb' 0 96
  | 1 => q.extractLsb' 96 32 ++ v ++ q.extractLsb' 0 64
  | 2 => q.extractLsb' 64 64 ++ v ++ q.extractLsb' 0 32
  | 3 => q.extractLsb' 32 96 ++ v

/-- The lookup primitive `T(t, i)` (R24, R62): total, since a 2-bit number and an 8-bit index are always in range. -/
def Rom.T (r : Rom) (t : TableNumber) (i : TableIndex) : Word :=
  (r.tables[t.toNat]'(t.isLt))[i.toNat]'(i.isLt)

/-- `RC(j)` for j in 1..16 (R25). -/
def Rom.RC (r : Rom) (j : RoundNumber) : Word :=
  r.constants[j.val - 1]'(by have := j.property; omega)

/-- The round number of a 0-based round index: `RC(i + 1)` (R52, R70). -/
def roundNumber (i : RoundIndex) : RoundNumber :=
  ⟨i.toNat + 1, by have := i.isLt; omega⟩

/-- A host write of word w of KEY sets the word and its wr_ flag (R30, R38). -/
def State.writeKey (s : State) (w : Fin 4) (v : Word) : State :=
  { s with key := putWord s.key w v, wrKey := s.wrKey.set w true }

/-- A host write of word w of DIN sets the word and its wr_ flag (R30, R38). -/
def State.writeDin (s : State) (w : Fin 4) (v : Word) : State :=
  { s with din := putWord s.din w v, wrDin := s.wrDin.set w true }

/-- Issue: `CMD <- v; STATUS.BUSY <- 1`, and nothing else (R118). -/
def State.issue (s : State) (v : Word) : State :=
  { s with cmd := v }.flagIssued

/-- The result of a legal command is written: `DOUT <- result; wr_DOUT[0..3] <- 1; STATUS.ERR <- 0; STATUS.BUSY <- 0`
(R119). -/
def State.commit (s : State) (result : Block) : State :=
  { s with dout := result, wrDout := allWritten }.flagCompleted false

/-- The completion of an illegal command: `STATUS.ERR <- 1; STATUS.BUSY <- 0`, and nothing else (R98). -/
def State.completeIllegal (s : State) : State :=
  s.flagCompleted true

/-- The turns still to be taken. -/
def State.withTurns (s : State) (ts : List Turn) : State :=
  { s with turns := ts }

/-- The host has received the value of one read. -/
def State.receive (s : State) (v : Word) : State :=
  { s with received := s.received ++ [v] }

/-- Reset: every piece of the core's state takes its value of R31, whatever it was, and a command in flight is dropped.
The ROMs keep their contents (R115). The host agent's own side is no state of the core and stays (Assumption 6). -/
def State.platformReset (s : State) : State :=
  { State.reset with rom := s.rom, turns := s.turns, received := s.received }

end Sys2Proof.Machine
end

