-- ==== Sys2Proof/Machine/Bus.lean ====
section
/-! DEFINITION. The register block as the host sees it (spec/20_memory.md): the address map, the admission of an access,
and what an admitted read or write does. The core fixes nothing else of the host's address space (R33), so the model
holds no memory. -/

namespace Sys2Proof.Machine

open Sys2Proof

/-- The byte offset of a register word (R32). -/
def Reg.offset : Reg → Nat
  | .key w => 0x00 + 4 * w.val
  | .din w => 0x10 + 4 * w.val
  | .dout w => 0x20 + 4 * w.val
  | .cmd => 0x30
  | .status => 0x34

/-- The register word at a byte offset, for the fourteen offsets of R32; every other offset, the reserved 0x38 to 0x3F
among them, has none. -/
def regAt (off : Nat) : Option Reg :=
  match off with
  | 0x00 => some (.key 0)
  | 0x04 => some (.key 1)
  | 0x08 => some (.key 2)
  | 0x0C => some (.key 3)
  | 0x10 => some (.din 0)
  | 0x14 => some (.din 1)
  | 0x18 => some (.din 2)
  | 0x1C => some (.din 3)
  | 0x20 => some (.dout 0)
  | 0x24 => some (.dout 1)
  | 0x28 => some (.dout 2)
  | 0x2C => some (.dout 3)
  | 0x30 => some .cmd
  | 0x34 => some .status
  | _ => none

/-- The width in bytes of an access. -/
def Access.width : Access → Nat
  | .read n _ => n
  | .write n _ _ => n

/-- The byte address of an access. -/
def Access.addr : Access → Nat
  | .read _ a => a
  | .write _ a _ => a

/-- The admission of an access (R36): it is 4 bytes wide, `(a - P_BASE) mod 4 = 0`, and `a - P_BASE` is one of the
fourteen offsets of R32. The difference is that of integers: an address below the base has no offset. -/
def admission (base : Nat) (a : Access) : Except Refusal Reg :=
  if a.width ≠ 4 then .error .accessWidth
  else if ((a.addr : Int) - base) % 4 ≠ 0 then .error .accessMisaligned
  else if a.addr < base then .error .accessNoRegister
  else match regAt (a.addr - base) with
    | some r => .ok r
    | none => .error .accessNoRegister

/-- What an admitted host read returns (R37): the word its register holds, or the hazard of R101. Of a word that nothing
has written since reset "the hardware returns some 32-bit value" (R99): the one the register holds (Assumptions 2, 17).
The fault that R37 and R99 give the spec's model there is `unwrittenFault`'s. -/
def hostRead (s : State) : Reg → Except Fault Word
  | .key w => .ok (getWord s.key w)
  | .din w => .ok (getWord s.din w)
  | .dout w => if s.busy then .error .hazardDoutRead else .ok (getWord s.dout w)
  | .cmd => .ok s.cmd
  | .status => .ok s.status

/-- What an admitted host write does (R38): writes to DOUT and STATUS are ignored. -/
def hostWrite (s : State) (r : Reg) (v : Word) : Except Fault State :=
  match r with
  | .key w => if s.busy then .error .hazardOperandWrite else .ok (s.writeKey w v)
  | .din w => if s.busy then .error .hazardOperandWrite else .ok (s.writeDin w v)
  | .dout _ => .ok s
  | .cmd => if s.busy then .error .hazardCmdWrite else .ok (s.issue v)
  | .status => .ok s

/-- One host step (R9, R39): the access is refused when it is not admitted (stuck, R36); a read delivers its value to
the host and changes nothing of the core (R37); a write does what R38 says. -/
def busAccess (base : Nat) (a : Access) (s : State) : Host.Outcome State Fault Refusal :=
  match admission base a with
  | .error r => .refused r
  | .ok reg =>
    match a with
    | .read _ _ =>
      match hostRead s reg with
      | .ok v => .next (s.receive v)
      | .error e => .fault e
    | .write _ _ v =>
      match hostWrite s reg v with
      | .ok t => .next t
      | .error e => .fault e

end Sys2Proof.Machine
end

