-- ==== Sys2Proof/Machine/Operands.lean ====
section
/-! DEFINITION. The operands of the commands: where each stands in KEY and DIN (spec/10_state.md R19, R20), which words
each command reads (spec/60_exceptions.md R100), and how a result enters the 128-bit DOUT (R13, D11). -/

namespace Sys2Proof.Machine

open Sys2Proof

/-- A word of an operand register. -/
inductive OperandWord where
  | key (w : Fin 4)
  | din (w : Fin 4)
  deriving DecidableEq, Repr

/-- KEY0 to KEY3. -/
def keyWords : List OperandWord := [.key 0, .key 1, .key 2, .key 3]

/-- DIN0 to DIN3. -/
def dinWords : List OperandWord := [.din 0, .din 1, .din 2, .din 3]

/-- "The words each command reads are these" (R100). -/
def operandWords : Instr → List OperandWord
  | .tlu _ => [.din 3]
  | .g => [.din 3]
  | .ks _ => keyWords
  | .f => dinWords
  | .dec => dinWords ++ keyWords

/-- Whether an operand word has been written since reset: its wr_ flag (R30). -/
def State.written (s : State) : OperandWord → Bool
  | .key w => s.wrKey[w]
  | .din w => s.wrDin[w]

/-- Every operand word the command reads has been written (R100, R119). -/
def State.operandsWritten (s : State) (i : Instr) : Bool :=
  (operandWords i).all s.written

/-- `DIN[7:0]`, TLU's index (R20, R65). -/
def State.opIndex (s : State) : TableIndex := s.din.extractLsb' 0 8

/-- `DIN[31:0]`, G's Word (R20, R69). -/
def State.opWord (s : State) : Word := s.din.extractLsb' 0 32

/-- `(DIN[127:96], DIN[95:64])`, F's RoundKeyPair (R20, R85). -/
def State.opPair (s : State) : RoundKeyPair :=
  { k0 := s.din.extractLsb' 96 32, k1 := s.din.extractLsb' 64 32 }

/-- `DIN[63:0]`, F's HalfBlock (R20, R85). -/
def State.opHalf (s : State) : HalfBlock := s.din.extractLsb' 0 64

/-- `DIN[127:0]`, DEC's Block (R20, R96). -/
def State.opBlock (s : State) : Block := s.din

/-- `KEY[127:0]`, the Key of KS and DEC (R19). -/
def State.opKey (s : State) : Key := s.key

/-- `zext_128` of a Word: DOUT[31:0] is the Word and DOUT[127:32] is 0 (R65, R69). -/
def resultWord (x : Word) : Block := x.setWidth 128

/-- `zext_128` of a HalfBlock: DOUT[63:0] is the HalfBlock and DOUT[127:64] is 0 (R85). -/
def resultHalf (x : HalfBlock) : Block := x.setWidth 128

/-- `k0 ‖ k1 ‖ zext_64(0)` (R78). -/
def resultPair (kp : RoundKeyPair) : Block := kp.k0 ++ kp.k1 ++ 0#64

/-- The completion that every legal command shares (R119): the write of its result and of the flags. With an operand word
that nothing has written "the hardware computes a result from whatever the register holds" (R100), so nothing stops it;
the fault that R100 and R119 give the spec's model there is `unwrittenFault`'s (Assumption 2). -/
def completeLegal (result : Block) (s : State) : Host.Outcome State Fault Refusal :=
  .next (s.commit result)

end Sys2Proof.Machine
end

