-- ==== Sys2Proof/Machine/Confusion.lean ====
section
/-! DEFINITION. The confusion function G and the G command (spec/41_confusion.md). -/

namespace Sys2Proof.Machine

open Sys2Proof

/-- G(x) (R66): table 0 takes the most significant byte of x and table 3 the least, and the four entries are combined
by exclusive or. -/
def confusion (r : Rom) (x : Word) : Word :=
  let b0 : TableIndex := x.extractLsb' 24 8
  let b1 : TableIndex := x.extractLsb' 16 8
  let b2 : TableIndex := x.extractLsb' 8 8
  let b3 : TableIndex := x.extractLsb' 0 8
  let z3 := r.T 0 b0
  let z2 := r.T 1 b1
  let z1 := r.T 2 b2
  let z0 := r.T 3 b3
  z3 ^^^ z2 ^^^ z1 ^^^ z0

/-- G: `DOUT <- zext_128(G(DIN[31:0]))` (R69). -/
def execG (s : State) : Host.Outcome State Fault Refusal :=
  completeLegal (resultWord (confusion s.rom s.opWord)) s

end Sys2Proof.Machine
end

