-- ==== Sys2Proof/Machine/KeySchedule.lean ====
section
/-! DEFINITION. The key-schedule generator K and the KS command (spec/42_key_schedule.md). The sums are exact in ℤ, the
absolute value comes first and the reduction modulo 2^32 second (R72, R73, R75, 90_conflicts.md C3). The rotation of
key2‖key3 is discarded by the source and is not modelled (R76, D22). -/

namespace Sys2Proof.Machine

open Sys2Proof

/-- `gx0 = key0 + key2 - c` in ℤ (R72). -/
def gx0 (key : Key) (c : Word) : Int :=
  (getWord key 0).toNat + (getWord key 2).toNat - c.toNat

/-- `gx1 = key1 - key3 + c` in ℤ (R73). -/
def gx1 (key : Key) (c : Word) : Int :=
  (getWord key 1).toNat - (getWord key 3).toNat + c.toNat

/-- `|z| mod 2^32` (R12, R72). -/
def absMod32 (z : Int) : Word :=
  BitVec.ofNat 32 z.natAbs

/-- K(key, i) with `c = RC(i + 1)`: `k0 = G(|gx0| mod 2^32)` and `k1 = G(|gx1| mod 2^32)` (R70 to R73). -/
def keySchedule (r : Rom) (key : Key) (i : RoundIndex) : RoundKeyPair :=
  let c := r.RC (roundNumber i)
  { k0 := confusion r (absMod32 (gx0 key c))
    k1 := confusion r (absMod32 (gx1 key c)) }

/-- The argument of the first G as the hardware datapath of R74 computes it: a 33-bit sum, a comparison, and one of the
two differences. -/
def datapathArg0 (key : Key) (c : Word) : Word :=
  let s0 : BitVec 33 := (getWord key 0).setWidth 33 + (getWord key 2).setWidth 33
  let c' : BitVec 33 := c.setWidth 33
  if c' ≤ s0 then (s0 - c').setWidth 32 else (c' - s0).setWidth 32

/-- The argument of the second G as the hardware datapath of R74 computes it. -/
def datapathArg1 (key : Key) (c : Word) : Word :=
  let s1 : BitVec 33 := (getWord key 1).setWidth 33 + c.setWidth 33
  let k3 : BitVec 33 := (getWord key 3).setWidth 33
  if k3 ≤ s1 then (s1 - k3).setWidth 32 else (k3 - s1).setWidth 32

/-- KS i: `DOUT <- k0 ‖ k1 ‖ zext_64(0)` with `(k0, k1) = K(KEY, i)` (R78). -/
def execKs (i : RoundIndex) (s : State) : Host.Outcome State Fault Refusal :=
  completeLegal (resultPair (keySchedule s.rom s.opKey i)) s

end Sys2Proof.Machine
end

