-- ==== Sys2Proof/Machine/RoundFunction.lean ====
section
/-! DEFINITION. The round function F and the F command (spec/43_round_function.md). Every addition is modulo 2^32 and
drops its carry (R83). -/

namespace Sys2Proof.Machine

open Sys2Proof

/-- The named intermediate values of F (R80). -/
structure RoundValues where
  a : Word
  b : Word
  common : Word
  g01 : Word
  g02 : Word
  g111 : Word
  g11 : Word
  deriving DecidableEq, Repr

/-- The steps of F, line by line as R80 writes them, with `r0 = x[63:32]` and `r1 = x[31:0]` (R79). -/
def roundValues (r : Rom) (kp : RoundKeyPair) (x : HalfBlock) : RoundValues :=
  let r0 : Word := x.extractLsb' 32 32
  let r1 : Word := x.extractLsb' 0 32
  let a := r0 ^^^ kp.k0
  let b := r1 ^^^ kp.k1
  let common := confusion r (a ^^^ b)
  let g01 := confusion r (common + a) + common
  let g02 := common + a
  let g111 := confusion r (a ^^^ b) + a
  let g11 := confusion r (g111 + common)
  { a, b, common, g01, g02, g111, g11 }

/-- `outHigh = (g01 + g02) mod 2^32` (R80). -/
def outHigh (v : RoundValues) : Word := v.g01 + v.g02

/-- `outLow = g11` (R80). -/
def outLow (v : RoundValues) : Word := v.g11

/-- `F(kp, r) = outHigh ‖ outLow`, each half exactly 32 bits (R80, R81). -/
def roundFunction (r : Rom) (kp : RoundKeyPair) (x : HalfBlock) : HalfBlock :=
  outHigh (roundValues r kp x) ++ outLow (roundValues r kp x)

/-- F: `DOUT <- zext_128(F((DIN[127:96], DIN[95:64]), DIN[63:0]))` (R85). -/
def execF (s : State) : Host.Outcome State Fault Refusal :=
  completeLegal (resultHalf (roundFunction s.rom s.opPair s.opHalf)) s

end Sys2Proof.Machine
end

