-- ==== Sys2Proof/Machine/Feistel.lean ====
section
/-! DEFINITION. The two-round Feistel transform and the DEC command (spec/44_feistel_core.md). -/

namespace Sys2Proof.Machine

open Sys2Proof

/-- The high 64 bits of a Block (R86). -/
def leftHalf (b : Block) : HalfBlock := b.extractLsb' 64 64

/-- The low 64 bits of a Block (R86). -/
def rightHalf (b : Block) : HalfBlock := b.extractLsb' 0 64

/-- The first round of DEC: `R' = L ^ F(K(key, i), R)`, `L' = R`; it swaps the halves (R87, where i = 1). -/
def swapRound (r : Rom) (key : Key) (i : RoundIndex) (b : Block) : Block :=
  rightHalf b ++ (leftHalf b ^^^ roundFunction r (keySchedule r key i) (rightHalf b))

/-- The final round of DEC: `L'' = L' ^ F(K(key, i), R')`, `R'' = R'`; it does not swap (R88, where i = 0). -/
def finalRound (r : Rom) (key : Key) (i : RoundIndex) (b : Block) : Block :=
  (leftHalf b ^^^ roundFunction r (keySchedule r key i) (rightHalf b)) ++ rightHalf b

/-- DEC(ct, key): exactly two rounds, with round index 1 and then 0 (R86 to R91). -/
def decrypt (r : Rom) (ct : Block) (key : Key) : Block :=
  finalRound r key 0 (swapRound r key 1 ct)

/-- The inverse of DEC, for testing only (R94): `X = Ro`, `R = Lo ^ F(K(key,0), X)`, `L = X ^ F(K(key,1), R)`. No command
computes it (R5). -/
def decryptInverse (r : Rom) (out : Block) (key : Key) : Block :=
  let x := rightHalf out
  let rr := leftHalf out ^^^ roundFunction r (keySchedule r key 0) x
  let ll := x ^^^ roundFunction r (keySchedule r key 1) rr
  ll ++ rr

/-- DEC: `DOUT <- DEC(DIN, KEY)`, all 128 bits (R96). -/
def execDec (s : State) : Host.Outcome State Fault Refusal :=
  completeLegal (decrypt s.rom s.opBlock s.opKey) s

end Sys2Proof.Machine
end

