-- ==== Sys2Proof/Machine/Substitution.lean ====
section
/-! DEFINITION. The substitution-table engine (spec/40_substitution.md): the check on a configuration's tables and the
TLU command. The lookup primitive `Rom.T` stands in Machine/Ops.lean. -/

namespace Sys2Proof.Machine

open Sys2Proof

/-- The source's `MalformedTableError` (R103): a table without exactly 256 entries, or another number of tables. The
second reason, for a list of round constants that is not 16 long, is the same check for `P_RC` (R25). -/
inductive ConfigRefusal where
  | malformedTable
  | malformedConstants
  deriving DecidableEq, Repr

/-- "a `P_T` given as lists must have four lists of 256 Words each, or the configuration is refused before reset"
(R103). The hardware never makes this check and no step of the machine reads it. -/
def Rom.ofLists (tables : List (List Word)) (constants : List Word) : Except ConfigRefusal Rom :=
  match tables with
  | [t0, t1, t2, t3] =>
    if h : t0.length = 256 ∧ t1.length = 256 ∧ t2.length = 256 ∧ t3.length = 256 then
      if hc : constants.length = 16 then
        .ok { tables := #v[⟨t0.toArray, h.1⟩, ⟨t1.toArray, h.2.1⟩, ⟨t2.toArray, h.2.2.1⟩, ⟨t3.toArray, h.2.2.2⟩]
              constants := ⟨constants.toArray, hc⟩ }
      else .error .malformedConstants
    else .error .malformedTable
  | _ => .error .malformedTable

/-- TLU t: `DOUT <- zext_128(T(t, DIN[7:0]))` (R65). -/
def execTlu (t : TableNumber) (s : State) : Host.Outcome State Fault Refusal :=
  completeLegal (resultWord (s.rom.T t s.opIndex)) s

end Sys2Proof.Machine
end

