-- ==== Sys2Proof/Machine/Dispatch.lean ====
section
/-! DEFINITION. One arm per command: the completion step of a legal command that the core has decoded (R119). -/

namespace Sys2Proof.Machine

def exec (i : Instr) (s : State) : Host.Outcome State Fault Refusal :=
  match i with
  | .tlu t => Sys2Proof.Machine.execTlu t s
  | .g => Sys2Proof.Machine.execG s
  | .ks r => Sys2Proof.Machine.execKs r s
  | .f => Sys2Proof.Machine.execF s
  | .dec => Sys2Proof.Machine.execDec s

end Sys2Proof.Machine
end

