-- ==== Sys2Proof/Machine/Life.lean ====
section
/-! DEFINITION. The life cycle of a command (spec/70_reset_and_hazards.md R115 to R120): the completion step of the
core, and the turn the next agent takes. -/

namespace Sys2Proof.Machine

open Sys2Proof

/-- Completion, one core step (R119): the legality of CMD is looked at first, and an illegal command reads no operand
(R98, R104). -/
def complete (s : State) : Host.Outcome State Fault Refusal :=
  match decode s.cmd with
  | .error _ => .next s.completeIllegal
  | .ok i => exec i s

/-- The core's turn: completion "is enabled only while STATUS.BUSY = 1" (R119); with no command in flight the core is
idle and nothing changes (R116; Assumption 6). -/
def coreTurn (s : State) : Host.Outcome State Fault Refusal :=
  if s.busy then complete s else .next s

/-- The turn that the next step takes: with none listed, the core's (Assumption 6). -/
def State.nextTurn (s : State) : Turn :=
  match s.turns with
  | [] => .core
  | t :: _ => t

/-- The next turn is taken. The host's accesses take effect one at a time, in its program order, and core completions
fall between them (R43, R44). When no turn is listed the host makes no access, and the core completes what is in
flight: "Every issued command completes" (R120). -/
def takeTurn (base : Nat) (s : State) : Host.Outcome State Fault Refusal :=
  match s.turns with
  | [] => coreTurn s
  | .core :: ts => coreTurn (s.withTurns ts)
  | .host a :: ts => busAccess base a (s.withTurns ts)
  | .reset :: ts => .next (s.withTurns ts).platformReset

/-- A command word given to the core for its very next step, as after a host's write of CMD (R118): CMD holds the word,
BUSY is 1, and the core moves next (Assumption 8). -/
def issueNext (s : State) (c : Word) : State :=
  { s with cmd := c, busy := true, turns := .core :: s.turns }

end Sys2Proof.Machine
end

