-- ==== Sys2Proof/Machine/Step.lean ====
section
/-! DEFINITION. One step of the machine. -/

namespace Sys2Proof.Machine

/-- One step: the next turn is taken, with the register block at `P_BASE`. -/
def step (s : State) : Host.Outcome State Fault Refusal :=
  takeTurn Config.pBase s

/-- `s` with the command word whose bits are `w` (numbered as the opcode table numbers them) issued, so that the very
next step completes it (Assumption 8). -/
def State.withFetchWord (s : State) (nbits w : Nat) : State :=
  issueNext s (tableWord nbits w)

end Sys2Proof.Machine
end

