-- ==== Sys2Proof/Machine/Notation.lean ====
section
/-! DEFINITION. The host's side as it touches the register block: the neutral host notation `wr`, `rd`, `cmd` and the
pseudo-instructions of spec/30_encoding.md R59 and R60, each as the list of turns it makes, and the host-software check
on a number's width (spec/60_exceptions.md R103). Host variables, host arithmetic and host branches belong to the host
and not to the core (R59): a list of turns holds the accesses they lead to. -/

namespace Sys2Proof.Machine

open Sys2Proof

/-- `wr REG, v`: `MemWrite(P_BASE + offset(REG), 4, v)` (R59). -/
def wr (base : Nat) (r : Reg) (v : Word) : Turn :=
  .host (.write 4 (base + r.offset) v)

/-- `rd hv, REG`: `MemRead(P_BASE + offset(REG), 4)` (R59). -/
def rd (base : Nat) (r : Reg) : Turn :=
  .host (.read 4 (base + r.offset))

/-- `cmd MNEMONIC ...`: a write of the command's encoding to CMD (R59). -/
def cmdTurn (base : Nat) (i : Instr) : Turn :=
  wr base .cmd (encode i)

/-- `ldkey k128` (R60). -/
def ldkey (base : Nat) (k : Key) : List Turn :=
  [wr base (.key 0) (k.extractLsb' 96 32), wr base (.key 1) (k.extractLsb' 64 32),
   wr base (.key 2) (k.extractLsb' 32 32), wr base (.key 3) (k.extractLsb' 0 32)]

/-- `lddin v128` (R60). -/
def lddin (base : Nat) (v : Block) : List Turn :=
  [wr base (.din 0) (v.extractLsb' 96 32), wr base (.din 1) (v.extractLsb' 64 32),
   wr base (.din 2) (v.extractLsb' 32 32), wr base (.din 3) (v.extractLsb' 0 32)]

/-- `rdout h0,h1,h2,h3` (R60). -/
def rdout (base : Nat) : List Turn :=
  [rd base (.dout 0), rd base (.dout 1), rd base (.dout 2), rd base (.dout 3)]

/-- `n` reads of STATUS one after another: the polls of a `wait` loop that come before the completion. -/
def polls (base n : Nat) : List Turn :=
  List.replicate n (rd base .status)

/-- `wait` (R60) in a run where the completion falls after `n` polls: `n` polls see BUSY = 1, the core completes, and
one more poll sees BUSY = 0 and leaves the loop (R120: any finite number of polls). -/
def waitTurns (base n : Nat) : List Turn :=
  polls base n ++ [.core, rd base .status]

/-- `run MNEMONIC ..` (R60). -/
def runTurns (base : Nat) (i : Instr) (n : Nat) : List Turn :=
  cmdTurn base i :: waitTurns base n

/-- `decrypt ct, key` (R60): "the hardware form of the source's entry point". -/
def decryptTurns (base : Nat) (ct : Block) (key : Key) (n : Nat) : List Turn :=
  ldkey base key ++ lddin base ct ++ runTurns base .dec n ++ rdout base

/-- The source's `OutOfRange` (R103), "ciphertext or key exceeds 128 bits". -/
inductive NumberRefusal where
  | outOfRange
  deriving DecidableEq, Repr

/-- Host software turning a number into a 128-bit register value: a number that exceeds 128 bits "must be detected and
rejected rather than silently truncated" (R103), and a smaller one is zero-extended (R19). -/
def numberToBlock (n : Nat) : Except NumberRefusal Block :=
  if n < 2 ^ 128 then .ok (BitVec.ofNat 128 n) else .error .outOfRange

end Sys2Proof.Machine
end

