-- ==== Sys2Proof/Machine/Unwritten.lean ====
section
/-! DEFINITION. The spec's model beside the machine (spec/60_exceptions.md). On a word that nothing has written since reset
the hardware goes on with what the register holds, and the spec's model faults (R99, R100): `step` is the first and
`modelStep` the second (Assumption 2). They differ in nothing else. The wr_ flags, "model bookkeeping" and "not hardware"
(R30), decide the difference. -/

namespace Sys2Proof.Machine

open Sys2Proof

/-- The reasons of the model fault state, "a closed set" (R102). -/
inductive ModelFault where
  /-- R99: a host read of KEYw, DINw or DOUTw while its wr_ flag is 0. Safe: the machine goes on. -/
  | unwrittenRead
  /-- R100: the completion of a legal command that reads an operand word whose wr_ flag is 0. Safe: the machine goes on. -/
  | unwrittenOperand
  /-- R101: a host write of CMD while BUSY = 1. Safe. -/
  | hazardCmdWrite
  /-- R101: a host write of a word of KEY or DIN while BUSY = 1. Safe. -/
  | hazardOperandWrite
  /-- R101: a host read of a word of DOUT while BUSY = 1. Safe. -/
  | hazardDoutRead
  deriving DecidableEq, Repr

/-- The reason that a hazard of the machine is recorded under (R101, R102). -/
def Fault.reason : Fault → ModelFault
  | .hazardCmdWrite => .hazardCmdWrite
  | .hazardOperandWrite => .hazardOperandWrite
  | .hazardDoutRead => .hazardDoutRead

/-- Nothing has written the register word since reset: its wr_ flag is 0 (R30). CMD and STATUS have none. -/
def State.unwritten (s : State) : Reg → Bool
  | .key w => !s.wrKey[w]
  | .din w => !s.wrDin[w]
  | .dout w => !s.wrDout[w]
  | .cmd => false
  | .status => false

/-- The fault of R99 that a host access meets: an admitted read of an unwritten word, with no hazard before it (R104). -/
def readFault (base : Nat) (a : Access) (s : State) : Option ModelFault :=
  match admission base a, a with
  | .ok r, .read _ _ =>
    match hostRead s r with
    | .ok _ => if s.unwritten r then some .unwrittenRead else none
    | .error _ => none
  | _, _ => none

/-- The fault of R100 that the core's turn meets: a completion of a legal command with an operand word unwritten. An
illegal command reads no operand (R104). -/
def completionFault (s : State) : Option ModelFault :=
  if s.busy then
    match decode s.cmd with
    | .ok i => if s.operandsWritten i then none else some .unwrittenOperand
    | .error _ => none
  else none

/-- The fault on an unwritten word that the next turn meets in the spec's model. -/
def unwrittenFault (base : Nat) (s : State) : Option ModelFault :=
  match s.nextTurn with
  | .host a => readFault base a s
  | .core => completionFault s
  | .reset => none

/-- The next turn as the spec's model takes it: the fault on an unwritten word, else what the machine does. -/
def modelTurn (base : Nat) (s : State) : Host.Outcome State ModelFault Refusal :=
  match unwrittenFault base s with
  | some e => .fault e
  | none =>
    match takeTurn base s with
    | .next t => .next t
    | .fault e => .fault e.reason
    | .refused r => .refused r

/-- One step of the spec's model, with the outcomes of R97: R37, R98 to R101, R104 and R119 with all their faults. -/
def modelStep (s : State) : Host.Outcome State ModelFault Refusal :=
  modelTurn Config.pBase s

end Sys2Proof.Machine
end

