-- ==== Sys2Proof/Safety.lean ====
section
/-! DEFINITION. The terms the claims use: the outcomes of a run (spec/60_exceptions.md R97, R102), the rules a host must
keep (spec/70_reset_and_hazards.md R117, R121), and the predicates and relations that every step keeps. -/

namespace Sys2Proof.Machine

open Sys2Proof

/-- `n` steps of the machine, stopping at the first fault or refusal: `Host.Core.run core`, with the machine's own types
written out (Laws/Run.lean proves the two equal). -/
def runSteps : Nat → State → Host.Outcome State Fault Refusal
  | 0, s => .next s
  | n + 1, s =>
    match step s with
    | .next t => runSteps n t
    | .fault e => .fault e
    | .refused e => .refused e

/-- The model fault record (R18, R31) and the stuck outcome (R97) of a run. -/
inductive RunRecord where
  /-- the record is empty -/
  | empty
  /-- the run is in the fault state, with the reason recorded -/
  | faulted (reason : ModelFault)
  /-- the host is stuck: its access has no step -/
  | stuck (reason : Refusal)
  deriving DecidableEq, Repr

/-- A run of the spec's model: its state and the fault record that the model keeps beside it (R18). -/
structure ModelRun where
  state : State
  record : RunRecord
  deriving DecidableEq, Repr

/-- "The model's run starts in the reset state" (R115), with an empty fault record (R31). -/
def ModelRun.start : ModelRun :=
  { state := State.reset, record := .empty }

/-- A run goes on by one step of the spec's model: a fault is recorded and ends the run, and no later step leaves it (R102). A stuck host
access ends the run as well, for the core and the platform too. That is the model's choice (DESIGN CHOICE, Assumption 18):
R36 and R97 say only that the host is stuck and the access has no step, and the spec leaves open whether a command in
flight still completes, or a reset still comes, after it. -/
def ModelRun.advance (r : ModelRun) : ModelRun :=
  match r.record with
  | .empty =>
    match modelStep r.state with
    | .next s => { state := s, record := .empty }
    | .fault e => { state := r.state, record := .faulted e }
    | .refused e => { state := r.state, record := .stuck e }
  | _ => r

/-- `n` steps of a run. -/
def ModelRun.advanceN : Nat → ModelRun → ModelRun
  | 0, r => r
  | n + 1, r => ModelRun.advanceN n r.advance

/-- `n` steps lead from `s` to `t`, on the machine and in a run of the spec's model, whose fault record stays empty. -/
def State.runsTo (s : State) (n : Nat) (t : State) : Prop :=
  runSteps n s = .next t ∧ ModelRun.advanceN n { state := s, record := .empty } = { state := t, record := .empty }

/-- The turn is a write to a register word that the block admits. -/
def Turn.writesTo (t : Turn) (r : Reg) : Prop :=
  ∃ v, t = wr Config.pBase r v

/-- The wr_DOUT flags are all 0 or all 1: a completion sets the four together (R30). -/
def State.doutFlagsUniform (s : State) : Prop :=
  s.wrDout = noneWritten ∨ s.wrDout = allWritten

/-- Every wr_ flag that is 1 in `s` is 1 in `t` (R30). -/
def State.flagsKept (s t : State) : Prop :=
  ∀ w : Fin 4, (s.wrKey[w] = true → t.wrKey[w] = true) ∧ (s.wrDin[w] = true → t.wrDin[w] = true) ∧
    (s.wrDout[w] = true → t.wrDout[w] = true)

/-- Two states that differ at most in the values of words that nothing has written since reset: the words for which
the spec gives no value (R31). -/
def State.sameWritten (s t : State) : Prop :=
  s.cmd = t.cmd ∧ s.busy = t.busy ∧ s.err = t.err ∧ s.wrKey = t.wrKey ∧ s.wrDin = t.wrDin ∧ s.wrDout = t.wrDout ∧
    s.rom = t.rom ∧ s.turns = t.turns ∧ s.received = t.received ∧
    (∀ w : Fin 4, s.wrKey[w] = true → getWord s.key w = getWord t.key w) ∧
    (∀ w : Fin 4, s.wrDin[w] = true → getWord s.din w = getWord t.din w) ∧
    (∀ w : Fin 4, s.wrDout[w] = true → getWord s.dout w = getWord t.dout w)

/-- Two outcomes of the same kind: the same fault, the same refusal, or next states that are related. -/
def outcomesAgree (rel : State → State → Prop) (a b : Host.Outcome State ModelFault Refusal) : Prop :=
  match a, b with
  | .next s, .next t => rel s t
  | .fault e, .fault e' => e = e'
  | .refused e, .refused e' => e = e'
  | _, _ => False

/-- Legal commands completed one after another, with no host step between them. -/
def execAll : List Instr → State → Host.Outcome State Fault Refusal
  | [], s => .next s
  | i :: is, s =>
    match exec i s with
    | .next t => execAll is t
    | .fault e => .fault e
    | .refused e => .refused e

/-- The access breaks the BUSY rule (R121): a write of CMD or of a word of KEY or DIN, or a read of a word of DOUT. -/
def Access.breaksBusyRule (base : Nat) (a : Access) : Bool :=
  match admission base a, a with
  | .ok .cmd, .write _ _ _ => true
  | .ok (.key _), .write _ _ _ => true
  | .ok (.din _), .write _ _ _ => true
  | .ok (.dout _), .read _ _ => true
  | _, _ => false

/-- The access reads a word of KEY, DIN or DOUT that nothing has written since reset (R99). -/
def Access.readsUnwritten (base : Nat) (a : Access) (s : State) : Bool :=
  match admission base a, a with
  | .ok r, .read _ _ => s.unwritten r
  | _, _ => false

end Sys2Proof.Machine
end

