-- ==== Sys2Proof/Certificates/Slice0/Obligations.lean ====
section
/-! DEFINITION. What is claimed of the machine, one proposition each. A docstring names the rules of spec/ that the
proposition formalises. `State.withTurns` lists the turns that come next; with the turn listed, `step` takes it. `step` is the machine
and `modelStep` the spec's model of it: they differ on words that nothing has written since reset, where the hardware goes
on and the spec's model faults (R99, R100; Assumption 2). -/

open Sys2Proof Sys2Proof.Machine

/-! ### Command words (30_encoding.md) -/

/-- R54, R58: decoding a command's word gives the command back, for every operand value. -/
def Obligations.EncodeThenDecode : Prop :=
  ∀ i : Instr, decode (encode i) = .ok i

/-- R49, R54: a word that decodes is the word of what it decodes to, so each legal word has one meaning and no bit of it
is dropped. -/
def Obligations.DecodeThenEncode : Prop :=
  ∀ (c : Word) (i : Instr), decode c = .ok i → encode i = c

/-- R51, R52, R54: a word decodes to a command exactly when it selects that command's row by match and mask and its
operand field holds the command's operand. -/
def Obligations.DecodeSelectsOpcodeMapRow : Prop :=
  ∀ (c : Word) (i : Instr), decode c = .ok i ↔
    match i with
    | .tlu t => c &&& 0xFFFFFCFF#32 = 0x00000001#32 ∧ c.extractLsb' 8 2 = t
    | .g => c &&& 0xFFFFFFFF#32 = 0x00000002#32
    | .ks r => c &&& 0xFFF0FFFF#32 = 0x00000003#32 ∧ c.extractLsb' 16 4 = r
    | .f => c &&& 0xFFFFFFFF#32 = 0x00000004#32
    | .dec => c &&& 0xFFFFFFFF#32 = 0x00000005#32

/-- R56, first sentence and its five bullets: a word is illegal exactly when it selects no row, and exactly when one of
the bullets holds of it. -/
def Obligations.IllegalWordsExactly : Prop :=
  ∀ c : Word,
    ((∃ e, decode c = .error e) ↔ ∀ i : Instr, selectsRow c i = false) ∧
    ((∃ e, decode c = .error e) ↔
      (c.extractLsb' 0 8 = 0x00#8 ∨ 0x06#8 ≤ c.extractLsb' 0 8 ∨ c.extractLsb' 10 6 ≠ 0#6 ∨ c.extractLsb' 20 12 ≠ 0#12 ∨
        (c.extractLsb' 8 2 ≠ 0#2 ∧ c.extractLsb' 0 8 ≠ 0x01#8) ∨ (c.extractLsb' 16 4 ≠ 0#4 ∧ c.extractLsb' 0 8 ≠ 0x03#8)))

/-- 95_test_vectors.md, V-E-1 to V-E-6 and V-E-10, V-E-13: words written out from the bit patterns of R55. -/
def Obligations.SampleWordsDecode : Prop :=
  decode 0b00000000000000000000000000000001#32 = .ok (.tlu 0) ∧
  decode 0b00000000000000000000001100000001#32 = .ok (.tlu 3) ∧
  decode 0b00000000000000000000000000000010#32 = .ok .g ∧
  decode 0b00000000000011110000000000000011#32 = .ok (.ks 15) ∧
  decode 0b00000000000000000000000000000100#32 = .ok .f ∧
  decode 0b00000000000000000000000000000101#32 = .ok .dec ∧
  decode 0x00000105#32 = .error .tselUnused ∧
  decode 0x00000401#32 = .error .reservedBit

/-- R58: the assembler's words, its refusals, and that only `.cmd` can write an illegal word. -/
def Obligations.AssemblerWords : Prop :=
  (∀ t : Nat, assemble ⟨.tlu, [t]⟩ = if t ≤ 3 then some (0x00000001#32 ||| (BitVec.ofNat 32 t <<< 8)) else none) ∧
  (∀ i : Nat, assemble ⟨.ks, [i]⟩ = if i ≤ 15 then some (0x00000003#32 ||| (BitVec.ofNat 32 i <<< 16)) else none) ∧
  assemble ⟨.g, []⟩ = some 0x00000002#32 ∧ assemble ⟨.f, []⟩ = some 0x00000004#32 ∧
  assemble ⟨.dec, []⟩ = some 0x00000005#32 ∧
  (∀ (n : Nat) (ns : List Nat), assemble ⟨.g, n :: ns⟩ = none ∧ assemble ⟨.f, n :: ns⟩ = none ∧ assemble ⟨.dec, n :: ns⟩ = none) ∧
  (∀ w : Word, assemble ⟨.rawCmd, [w.toNat]⟩ = some w) ∧
  (∀ (a : AsmLine) (c : Word), assemble a = some c → a.mnemonic ≠ .rawCmd → ∃ i, decode c = .ok i)

/-! ### The register block (20_memory.md) -/

/-- R32: the fourteen register words stand at their offsets, and no other offset has one. -/
def Obligations.AddressMapExact : Prop :=
  (∀ (off : Nat) (r : Reg), regAt off = some r ↔ off = r.offset) ∧
  (∀ w : Fin 4, (Reg.key w).offset = 4 * w.val ∧ (Reg.din w).offset = 0x10 + 4 * w.val ∧
    (Reg.dout w).offset = 0x20 + 4 * w.val) ∧
  Reg.cmd.offset = 0x30 ∧ Reg.status.offset = 0x34

/-- R36: a host access is refused, whatever the state, exactly when one of the three conditions fails. -/
def Obligations.AdmissionExactly : Prop :=
  ∀ (s : State) (a : Access) (ts : List Turn),
    (∃ e, step (s.withTurns (.host a :: ts)) = .refused e) ↔
      ¬ (a.width = 4 ∧ ((a.addr : Int) - Config.pBase) % 4 = 0 ∧ ∃ r : Reg, (a.addr : Int) - Config.pBase = r.offset)

/-- R37: what an admitted host read returns in the spec's model, its faults, and that it changes no state of the core. -/
def Obligations.HostReadReturns : Prop :=
  ∀ (s : State) (ts : List Turn),
    (∀ w : Fin 4, modelStep (s.withTurns (rd Config.pBase (.key w) :: ts)) =
      if s.wrKey[w] = false then .fault .unwrittenRead
      else .next { s with turns := ts, received := s.received ++ [s.key.extractLsb' (96 - 32 * w.val) 32] }) ∧
    (∀ w : Fin 4, modelStep (s.withTurns (rd Config.pBase (.din w) :: ts)) =
      if s.wrDin[w] = false then .fault .unwrittenRead
      else .next { s with turns := ts, received := s.received ++ [s.din.extractLsb' (96 - 32 * w.val) 32] }) ∧
    (∀ w : Fin 4, modelStep (s.withTurns (rd Config.pBase (.dout w) :: ts)) =
      if s.busy = true then .fault .hazardDoutRead
      else if s.wrDout[w] = false then .fault .unwrittenRead
      else .next { s with turns := ts, received := s.received ++ [s.dout.extractLsb' (96 - 32 * w.val) 32] }) ∧
    modelStep (s.withTurns (rd Config.pBase .cmd :: ts)) = .next { s with turns := ts, received := s.received ++ [s.cmd] } ∧
    modelStep (s.withTurns (rd Config.pBase .status :: ts)) =
      .next { s with
        turns := ts
        received := s.received ++ [0#30 ++ (BitVec.ofBool s.err ++ BitVec.ofBool s.busy)] }

/-- R37, R99 ("the hardware returns some 32-bit value"): what an admitted host read returns on the machine, the word its
register holds, written or not (Assumptions 2 and 17), and that it changes no state of the core. -/
def Obligations.HostReadDelivers : Prop :=
  ∀ (s : State) (ts : List Turn),
    (∀ w : Fin 4, step (s.withTurns (rd Config.pBase (.key w) :: ts)) =
      .next { s with turns := ts, received := s.received ++ [s.key.extractLsb' (96 - 32 * w.val) 32] }) ∧
    (∀ w : Fin 4, step (s.withTurns (rd Config.pBase (.din w) :: ts)) =
      .next { s with turns := ts, received := s.received ++ [s.din.extractLsb' (96 - 32 * w.val) 32] }) ∧
    (∀ w : Fin 4, step (s.withTurns (rd Config.pBase (.dout w) :: ts)) =
      if s.busy = true then .fault .hazardDoutRead
      else .next { s with turns := ts, received := s.received ++ [s.dout.extractLsb' (96 - 32 * w.val) 32] }) ∧
    step (s.withTurns (rd Config.pBase .cmd :: ts)) = .next { s with turns := ts, received := s.received ++ [s.cmd] } ∧
    step (s.withTurns (rd Config.pBase .status :: ts)) =
      .next { s with
        turns := ts
        received := s.received ++ [0#30 ++ (BitVec.ofBool s.err ++ BitVec.ofBool s.busy)] }

/-- R38: what an admitted host write does and its faults; `DOUT` and `STATUS` ignore it. -/
def Obligations.HostWriteDoes : Prop :=
  ∀ (s : State) (ts : List Turn) (v : Word),
    (∀ w : Fin 4, (s.busy = true → step (s.withTurns (wr Config.pBase (.key w) v :: ts)) = .fault .hazardOperandWrite) ∧
      (s.busy = false → ∃ k : Key,
        step (s.withTurns (wr Config.pBase (.key w) v :: ts)) = .next { s with turns := ts, key := k, wrKey := s.wrKey.set w true } ∧
        k.extractLsb' (96 - 32 * w.val) 32 = v ∧
        ∀ w' : Fin 4, w' ≠ w → k.extractLsb' (96 - 32 * w'.val) 32 = s.key.extractLsb' (96 - 32 * w'.val) 32)) ∧
    (∀ w : Fin 4, (s.busy = true → step (s.withTurns (wr Config.pBase (.din w) v :: ts)) = .fault .hazardOperandWrite) ∧
      (s.busy = false → ∃ d : Block,
        step (s.withTurns (wr Config.pBase (.din w) v :: ts)) = .next { s with turns := ts, din := d, wrDin := s.wrDin.set w true } ∧
        d.extractLsb' (96 - 32 * w.val) 32 = v ∧
        ∀ w' : Fin 4, w' ≠ w → d.extractLsb' (96 - 32 * w'.val) 32 = s.din.extractLsb' (96 - 32 * w'.val) 32)) ∧
    (∀ w : Fin 4, step (s.withTurns (wr Config.pBase (.dout w) v :: ts)) = .next { s with turns := ts }) ∧
    (step (s.withTurns (wr Config.pBase .cmd v :: ts)) =
      if s.busy = true then .fault .hazardCmdWrite else .next { s with turns := ts, cmd := v, busy := true }) ∧
    step (s.withTurns (wr Config.pBase .status v :: ts)) = .next { s with turns := ts }

/-- R22, R43: a host read right after a host write of the same read/write register returns the value written; for CMD
the read comes while the command is in flight. -/
def Obligations.WriteThenReadReturnsValue : Prop :=
  ∀ (s : State) (r : Reg) (v : Word) (ts : List Turn),
    s.busy = false → (r = .cmd ∨ ∃ w, r = .key w ∨ r = .din w) →
    ∃ t : State, (s.withTurns (wr Config.pBase r v :: rd Config.pBase r :: ts)).runsTo 2 t ∧
      t.received = s.received ++ [v] ∧ t.turns = ts

/-- R34, R39: the four word writes of `ldkey` make KEY, and those of `lddin` make DIN, as a 128-bit value whose word at
the lowest offset is most significant; nothing else of the core changes. -/
def Obligations.FourWordWritesMakeRegister : Prop :=
  ∀ (s : State) (v : BitVec 128) (ts : List Turn), s.busy = false →
    (s.withTurns (ldkey Config.pBase v ++ ts)).runsTo 4 { s with turns := ts, key := v, wrKey := Vector.replicate 4 true } ∧
    (s.withTurns (lddin Config.pBase v ++ ts)).runsTo 4 { s with turns := ts, din := v, wrDin := Vector.replicate 4 true }

/-- R39 ("in any order"), R117 step 2: two writes of different operand words, in either order, leave the same state. -/
def Obligations.OperandWritesCommute : Prop :=
  ∀ (s : State) (r r' : Reg) (v v' : Word) (ts : List Turn),
    s.busy = false → r ≠ r' → (∃ w, r = .key w ∨ r = .din w) → (∃ w, r' = .key w ∨ r' = .din w) →
    ∃ t : State, (s.withTurns (wr Config.pBase r v :: wr Config.pBase r' v' :: ts)).runsTo 2 t ∧
      (s.withTurns (wr Config.pBase r' v' :: wr Config.pBase r v :: ts)).runsTo 2 t

/-! ### The commands (40_substitution.md to 44_feistel_core.md) -/

/-- R65: TLU completes in every state (Assumption 2 where DIN3 is unwritten), DOUT[31:0] is the table entry that DIN[7:0] selects, DOUT[127:32]
is 0, ERR and BUSY are 0, and nothing else changes. -/
def Obligations.TluCompletes : Prop :=
  ∀ (t : TableNumber) (s : State),
    exec (.tlu t) s = .next { s with
      dout := 0#96 ++ s.rom.T t (s.din.extractLsb' 0 8), wrDout := Vector.replicate 4 true, err := false, busy := false }

/-- R66, R69: G completes in every state (Assumption 2 where DIN3 is unwritten), and DOUT[31:0] is the exclusive or of the four entries, table 0
taking the most significant byte of DIN[31:0]. -/
def Obligations.ConfusionCompletes : Prop :=
  ∀ s : State,
    exec .g s = .next { s with
      dout := 0#96 ++ (s.rom.T 0 (s.din.extractLsb' 24 8) ^^^ s.rom.T 1 (s.din.extractLsb' 16 8) ^^^
        s.rom.T 2 (s.din.extractLsb' 8 8) ^^^ s.rom.T 3 (s.din.extractLsb' 0 8))
      wrDout := Vector.replicate 4 true, err := false, busy := false }

/-- R70 to R73, R78: KS completes in every state (Assumption 2 where a word of KEY is unwritten); the sums are exact integers over the key words
and `c = RC(i + 1)`, and k0 and k1 stand in DOUT[127:96] and DOUT[95:64] over 64 zero bits. -/
def Obligations.KeyScheduleCompletes : Prop :=
  ∀ (i : RoundIndex) (s : State),
    let c : Int := (s.rom.RC ⟨i.toNat + 1, by have := i.isLt; omega⟩).toNat
    let key0 : Int := (s.key.extractLsb' 96 32).toNat
    let key1 : Int := (s.key.extractLsb' 64 32).toNat
    let key2 : Int := (s.key.extractLsb' 32 32).toNat
    let key3 : Int := (s.key.extractLsb' 0 32).toNat
    exec (.ks i) s = .next { s with
      dout := confusion s.rom (BitVec.ofInt 32 |key0 + key2 - c|) ++ confusion s.rom (BitVec.ofInt 32 |key1 - key3 + c|) ++ 0#64
      wrDout := Vector.replicate 4 true, err := false, busy := false }

/-- R80, R85: F completes in every state (Assumption 2 where a word of DIN is unwritten); `k0 = DIN0`, `k1 = DIN1`, `r0 = DIN2`, `r1 = DIN3`, and
every addition is modulo 2^32. The right side uses three evaluations of G (R82). -/
def Obligations.RoundFunctionCompletes : Prop :=
  ∀ s : State,
    let a : Word := s.din.extractLsb' 32 32 ^^^ s.din.extractLsb' 96 32
    let b : Word := s.din.extractLsb' 0 32 ^^^ s.din.extractLsb' 64 32
    let common := confusion s.rom (a ^^^ b)
    let g02 := common + a
    exec .f s = .next { s with
      dout := 0#64 ++ ((confusion s.rom g02 + common + g02) ++ confusion s.rom (g02 + common))
      wrDout := Vector.replicate 4 true, err := false, busy := false }

/-- R90, R96: DEC completes in every state (Assumption 2 where an operand word is unwritten), and DOUT is the closed form of the two
rounds: round index 1 first, then 0, no swap after the second. -/
def Obligations.DecryptCompletes : Prop :=
  ∀ s : State,
    let l : HalfBlock := s.din.extractLsb' 64 64
    let r : HalfBlock := s.din.extractLsb' 0 64
    let x := l ^^^ roundFunction s.rom (keySchedule s.rom s.key 1) r
    exec .dec s = .next { s with
      dout := (r ^^^ roundFunction s.rom (keySchedule s.rom s.key 0) x) ++ x
      wrDout := Vector.replicate 4 true, err := false, busy := false }

/-- R100, R104, R119: the completion of a legal command faults in the spec's model exactly when one of the operand words it
reads is unwritten, and it has no other fault and no refusal. The last clause is the model's choice (Assumption 2): the
machine is R100's hardware, which computes a result from whatever the registers hold, and so it goes on where R104 and R119
fault. -/
def Obligations.UnwrittenOperandFaultsExactly : Prop :=
  ∀ (i : Instr) (s : State) (ts : List Turn), s.busy = true → decode s.cmd = .ok i →
    (modelStep (s.withTurns (.core :: ts)) = .fault .unwrittenOperand ↔
      match i with
      | .tlu _ => s.wrDin[3] = false
      | .g => s.wrDin[3] = false
      | .ks _ => ∃ w : Fin 4, s.wrKey[w] = false
      | .f => ∃ w : Fin 4, s.wrDin[w] = false
      | .dec => ∃ w : Fin 4, s.wrDin[w] = false ∨ s.wrKey[w] = false) ∧
    (∀ e, modelStep (s.withTurns (.core :: ts)) = .fault e → e = .unwrittenOperand) ∧
    (∀ e, modelStep (s.withTurns (.core :: ts)) ≠ .refused e) ∧
    ∃ t : State, step (s.withTurns (.core :: ts)) = .next t

/-- R19, R20, R22, R24, R25, R30, R119: what the completion of any legal command (TLU, G, KS, F, DEC) leaves unchanged,
and its flags. The core has no memory and no other register (R18, R26). -/
def Obligations.CommandFrame : Prop :=
  ∀ (i : Instr) (s t : State), exec i s = .next t →
    t.key = s.key ∧ t.din = s.din ∧ t.cmd = s.cmd ∧ t.wrKey = s.wrKey ∧ t.wrDin = s.wrDin ∧ t.rom = s.rom ∧
      t.turns = s.turns ∧ t.received = s.received ∧ t.err = false ∧ t.busy = false ∧ ∀ w : Fin 4, t.wrDout[w] = true

/-- R29: the result of a command depends only on the command, the operand words it reads and the ROMs. -/
def Obligations.ResultDependsOnlyOnOperands : Prop :=
  ∀ (i : Instr) (s t s' t' : State), s.rom = t.rom →
    (∀ w : Fin 4, OperandWord.key w ∈ operandWords i → s.key.extractLsb' (96 - 32 * w.val) 32 = t.key.extractLsb' (96 - 32 * w.val) 32) →
    (∀ w : Fin 4, OperandWord.din w ∈ operandWords i → s.din.extractLsb' (96 - 32 * w.val) 32 = t.din.extractLsb' (96 - 32 * w.val) 32) →
    exec i s = .next s' → exec i t = .next t' → s'.dout = t'.dout

/-- R77: KS with the same index and the same key gives the same pair, whatever legal commands complete in between. -/
def Obligations.KeyScheduleIsStateless : Prop :=
  ∀ (i : RoundIndex) (js : List Instr) (s s1 s2 s3 : State),
    exec (.ks i) s = .next s1 → execAll js s1 = .next s2 → exec (.ks i) s2 = .next s3 → s3.dout = s1.dout

/-! ### The functions G, K, F and DEC -/

/-- R68: the four laws of G, for every table contents. -/
def Obligations.ConfusionLaws : Prop :=
  ∀ r : Rom,
    confusion r 0 = r.T 0 0 ^^^ r.T 1 0 ^^^ r.T 2 0 ^^^ r.T 3 0 ∧
    (∀ (x y : Word) (k : Fin 4),
      (∀ j : Fin 4, j ≠ k → x.extractLsb' (24 - 8 * j.val) 8 = y.extractLsb' (24 - 8 * j.val) 8) →
      confusion r x ^^^ confusion r y =
        r.T (BitVec.ofNat 2 k.val) (x.extractLsb' (24 - 8 * k.val) 8) ^^^ r.T (BitVec.ofNat 2 k.val) (y.extractLsb' (24 - 8 * k.val) 8)) ∧
    ((∀ t i, r.T t i = 0) → ∀ x, confusion r x = 0) ∧
    ((∀ t i, r.T t i = i.setWidth 32 <<< (24 - 8 * t.toNat)) → ∀ x, confusion r x = x)

/-- R74: the ranges of the two exact sums, the 34-bit two's-complement adder that holds them, and that the hardware
datapath computes the arguments of R72 and R73 for every input. -/
def Obligations.KeyScheduleDatapathAgrees : Prop :=
  ∀ (key : Key) (c : Word),
    (-(2 ^ 32 - 1) ≤ gx0 key c ∧ gx0 key c ≤ 2 ^ 33 - 2) ∧ (-(2 ^ 32 - 1) ≤ gx1 key c ∧ gx1 key c ≤ 2 ^ 33 - 2) ∧
    (BitVec.ofInt 34 (gx0 key c)).toInt = gx0 key c ∧ (BitVec.ofInt 34 (gx1 key c)).toInt = gx1 key c ∧
    datapathArg0 key c = absMod32 (gx0 key c) ∧ datapathArg1 key c = absMod32 (gx1 key c) ∧
    (gx0 key c < 2 ^ 32 → ((absMod32 (gx0 key c)).toNat : Int) = |gx0 key c|) ∧
    (gx1 key c < 2 ^ 32 → ((absMod32 (gx1 key c)).toNat : Int) = |gx1 key c|)

/-- R75: a negative sum gives its magnitude and not its two's-complement residue, and the case that tells them apart. -/
def Obligations.NegativeSumGivesMagnitude : Prop :=
  (∀ (key : Key) (c : Word), gx0 key c < 0 → ((absMod32 (gx0 key c)).toNat : Int) = - gx0 key c) ∧
  (∀ (key : Key) (c : Word), gx1 key c < 0 → ((absMod32 (gx1 key c)).toNat : Int) = - gx1 key c) ∧
  (∀ key : Key, key.extractLsb' 64 32 = 0#32 → key.extractLsb' 0 32 = 0xFFFFFFFF#32 →
    gx1 key 0x3C6EF373#32 = -0xC3910C8C ∧ absMod32 (gx1 key 0x3C6EF373#32) = 0xC3910C8C#32 ∧
      BitVec.ofInt 32 (gx1 key 0x3C6EF373#32) = 0x3C6EF374#32)

/-- R82: the identities of F, for every table contents. -/
def Obligations.RoundFunctionIdentities : Prop :=
  ∀ (r : Rom) (kp : RoundKeyPair) (x : HalfBlock),
    let v := roundValues r kp x
    v.g111 = v.g02 ∧ v.g11 = confusion r (v.g02 + v.common) ∧ outHigh v = confusion r v.g02 + v.common + v.g02 ∧
    roundFunction r kp x =
      (confusion r v.g02 + confusion r (v.a ^^^ v.b) + v.g02) ++ confusion r (v.g02 + confusion r (v.a ^^^ v.b))

/-- R81: each half of F's result is encoded to exactly 32 bits on its own, leading zeros kept. -/
def Obligations.ResultHalvesAreIndependent : Prop :=
  ∀ (r : Rom) (kp : RoundKeyPair) (x : HalfBlock),
    let v := roundValues r kp x
    (roundFunction r kp x).extractLsb' 32 32 = outHigh v ∧ (roundFunction r kp x).extractLsb' 0 32 = outLow v ∧
    (roundFunction r kp x).toNat = (outHigh v).toNat * 2 ^ 32 + (outLow v).toNat

/-- R94: the transform is a bijection on blocks for every key and every ROM contents, and the formula of R94 inverts
it. -/
def Obligations.DecryptIsBijective : Prop :=
  ∀ (r : Rom) (key : Key),
    (∀ ct, decryptInverse r (decrypt r ct key) key = ct) ∧ (∀ out, decrypt r (decryptInverse r out key) key = out) ∧
    Function.Bijective fun ct => decrypt r ct key

/-- R93: the order of the round indices is observable, under some table contents and not under the all-zero tables. -/
def Obligations.RoundOrderIsObservable : Prop :=
  (∃ (r : Rom) (ct : Block) (key : Key), finalRound r key 1 (swapRound r key 0 ct) ≠ decrypt r ct key) ∧
  (∀ (r : Rom) (ct : Block) (key : Key), (∀ t i, r.T t i = 0) → finalRound r key 1 (swapRound r key 0 ct) = decrypt r ct key)

/-- 95_test_vectors.md P2, R87 to R90: two rounds that a host builds from KS 1, F, KS 0 and F, copying DOUT into DIN,
give what DEC gives. -/
def Obligations.HostTwoRoundsEqualDecrypt : Prop :=
  ∀ (s s1 s2 s3 s4 s5 : State) (l r x : HalfBlock),
    exec (.ks 1) s = .next s1 →
    exec .f { s1 with din := s1.dout.extractLsb' 64 64 ++ r, wrDin := allWritten } = .next s2 →
    x = l ^^^ s2.dout.extractLsb' 0 64 →
    exec (.ks 0) s2 = .next s3 →
    exec .f { s3 with din := s3.dout.extractLsb' 64 64 ++ x } = .next s4 →
    exec .dec { s4 with din := l ++ r } = .next s5 →
    s5.dout = (r ^^^ s4.dout.extractLsb' 0 64) ++ x

/-! ### The life cycle of a command (70_reset_and_hazards.md) and the errors (60_exceptions.md) -/

/-- R118: an admitted write of any word to CMD while BUSY = 0 sets CMD and BUSY and changes nothing else; ERR keeps its
old value. -/
def Obligations.IssueSetsCmdAndBusyOnly : Prop :=
  ∀ (s : State) (v : Word) (ts : List Turn), s.busy = false →
    step (s.withTurns (wr Config.pBase .cmd v :: ts)) = .next { s with turns := ts, cmd := v, busy := true }

/-- R119: when a command is in flight and its word decodes, the core's turn is the meaning of that command in the state
with the turn taken. That a step with no turn listed is the core's turn, and so the same meaning, is the model's choice
(Assumption 6) and no rule of the spec; that this meaning goes on with an operand word unwritten is the model's choice too
(Assumption 2), and R119's check of the operand words is `modelStep`'s. -/
def Obligations.StepRunsDecodedCommand : Prop :=
  ∀ (s : State) (i : Instr), s.busy = true → decode s.cmd = .ok i →
    (∀ ts : List Turn, step (s.withTurns (.core :: ts)) = exec i (s.withTurns ts)) ∧ (s.turns = [] → step s = exec i s)

/-- R98: the completion of an illegal command sets ERR and clears BUSY and changes nothing else, whatever operand words
are unwritten, so that CMD still holds the word; the next legal completion clears ERR, and no other step but reset
does. -/
def Obligations.IllegalCommandCompletes : Prop :=
  (∀ (s : State) (ts : List Turn), s.busy = true → (∃ e, decode s.cmd = .error e) →
    step (s.withTurns (.core :: ts)) = .next { s with turns := ts, err := true, busy := false }) ∧
  (∀ (i : Instr) (s t : State), exec i s = .next t → t.err = false) ∧
  (∀ s t : State, step s = .next t → s.err = true → t.err = false →
    s.nextTurn = .reset ∨ (s.nextTurn = .core ∧ s.busy = true ∧ ∃ i, decode s.cmd = .ok i))

/-- The model's choice (Assumption 6), from R116 and R119 ("enabled only while STATUS.BUSY = 1"): with no command in
flight a turn of the core changes nothing. -/
def Obligations.CoreIdlesWithoutCommand : Prop :=
  ∀ s : State, s.busy = false →
    (∀ ts : List Turn, step (s.withTurns (.core :: ts)) = .next { s with turns := ts }) ∧ (s.turns = [] → step s = .next s)

/-- R101: the hazard faults while BUSY = 1, and the accesses that are allowed then. That a read of KEY or DIN answers a next
state where its word is unwritten too is the model's choice (Assumption 2): the machine is R99's hardware, and the spec's
model faults there (R37, R99). -/
def Obligations.HazardFaultsWhileBusy : Prop :=
  ∀ (s : State) (v : Word) (w : Fin 4) (ts : List Turn), s.busy = true →
    step (s.withTurns (wr Config.pBase .cmd v :: ts)) = .fault .hazardCmdWrite ∧
    step (s.withTurns (wr Config.pBase (.key w) v :: ts)) = .fault .hazardOperandWrite ∧
    step (s.withTurns (wr Config.pBase (.din w) v :: ts)) = .fault .hazardOperandWrite ∧
    step (s.withTurns (rd Config.pBase (.dout w) :: ts)) = .fault .hazardDoutRead ∧
    (∃ t : State, step (s.withTurns (rd Config.pBase (.key w) :: ts)) = .next t) ∧
    (∃ t : State, step (s.withTurns (rd Config.pBase (.din w) :: ts)) = .next t) ∧
    (∃ t : State, step (s.withTurns (rd Config.pBase .cmd :: ts)) = .next t) ∧
    (∃ t : State, step (s.withTurns (rd Config.pBase .status :: ts)) = .next t) ∧
    step (s.withTurns (wr Config.pBase (.dout w) v :: ts)) = .next { s with turns := ts } ∧
    step (s.withTurns (wr Config.pBase .status v :: ts)) = .next { s with turns := ts }

/-- R107, R118: a legal command issued after an ILLEGAL_CMD completion runs normally, and the old ERR stays visible until
that command completes. That it completes where an operand word is unwritten too is the model's choice (Assumption 2): the
machine is R100's hardware, and the spec's model faults there and leaves ERR as it was (R104, R119). -/
def Obligations.ErrStaysVisibleUntilCompletion : Prop :=
  ∀ (s : State) (i : Instr) (ts : List Turn), s.busy = false → s.err = true →
    ∃ t u : State, runSteps 2 (s.withTurns (cmdTurn Config.pBase i :: rd Config.pBase .status :: .core :: ts)) = .next t ∧
      t.received = s.received ++ [0x00000003#32] ∧ t.err = true ∧
      step t = .next u ∧ u.err = false ∧ u.busy = false ∧ exec i (t.withTurns ts) = .next u

/-- R31, R115: reset, from any state and with a command in flight too, leaves CMD and STATUS 0, every data word
unwritten (a read of one faults in the spec's model) and the ROMs as they were, and the dropped command writes nothing. Two clauses are the model's choice
(Assumption 6) and no rule of the spec: a turn of the core with BUSY = 0 answers a next state that changes nothing, and a
reset leaves the turns that are still listed. -/
def Obligations.ResetFromAnyState : Prop :=
  ∀ (s : State) (ts : List Turn), ∃ t : State,
    step (s.withTurns (.reset :: ts)) = .next t ∧ t.cmd = 0x00000000#32 ∧ t.status = 0x00000000#32 ∧
      t.wrKey = noneWritten ∧ t.wrDin = noneWritten ∧ t.wrDout = noneWritten ∧ t.rom = s.rom ∧ t.turns = ts ∧
      (∀ us : List Turn, step (t.withTurns (.core :: us)) = .next (t.withTurns us)) ∧
      (∀ (w : Fin 4) (us : List Turn), modelStep (t.withTurns (rd Config.pBase (.key w) :: us)) = .fault .unwrittenRead ∧
        modelStep (t.withTurns (rd Config.pBase (.din w) :: us)) = .fault .unwrittenRead ∧
        modelStep (t.withTurns (rd Config.pBase (.dout w) :: us)) = .fault .unwrittenRead)

/-- R31: the state a run starts from. The values of KEY, DIN and DOUT are no part of it: the spec gives none. -/
def Obligations.RunStartsInResetState : Prop :=
  ModelRun.start.record = .empty ∧ ModelRun.start.state = State.reset ∧
  State.reset.cmd = 0x00000000#32 ∧ State.reset.status = 0x00000000#32 ∧ State.reset.busy = false ∧ State.reset.err = false ∧
  (∀ w : Fin 4, State.reset.wrKey[w] = false ∧ State.reset.wrDin[w] = false ∧ State.reset.wrDout[w] = false) ∧
  (∀ (t : Fin 4) (i : Fin 256), State.reset.rom.T (BitVec.ofNat 2 t.val) (BitVec.ofNat 8 i.val) = Config.pT t i) ∧
  (∀ j : RoundNumber, State.reset.rom.RC j = Config.pRC j)

/-- R102: a fault ends the run; no later step leaves the fault state or clears its record, and the reasons are the five
of R102. -/
def Obligations.FaultEndsTheRun : Prop :=
  (∀ (n : Nat) (r : ModelRun) (e : ModelFault), r.record = .faulted e → r.advanceN n = r) ∧
  (∀ e : ModelFault, e = .unwrittenRead ∨ e = .unwrittenOperand ∨ e = .hazardCmdWrite ∨ e = .hazardOperandWrite ∨ e = .hazardDoutRead)

/-- R102, last sentence: each of the five faults is reached by some host run from the reset state. -/
def Obligations.EveryFaultIsReachable : Prop :=
  ∀ e : ModelFault, ∃ (turns : List Turn) (n : Nat),
    (ModelRun.advanceN n { state := State.reset.withTurns turns, record := .empty }).record = .faulted e

/-! ### What every step keeps -/

/-- R24, R25, R41, R47, R115: no step, a reset among them, changes a ROM. -/
def Obligations.RomNeverChanges : Prop :=
  ∀ s t : State, step s = .next t → t.rom = s.rom

/-- R19, R20, R123: KEY and its flags change only by a host write of a word of KEY, and DIN and its flags only by a host
write of a word of DIN, or by reset; no command writes them. -/
def Obligations.OperandsChangeOnlyByHostWrite : Prop :=
  ∀ s t : State, step s = .next t → s.nextTurn ≠ .reset →
    ((t.key = s.key ∧ t.wrKey = s.wrKey) ∨ ∃ w, s.nextTurn.writesTo (.key w)) ∧
    ((t.din = s.din ∧ t.wrDin = s.wrDin) ∨ ∃ w, s.nextTurn.writesTo (.din w))

/-- R21, R123: DOUT and its flags change only by the completion of a legal command or by reset; in the
spec's model, with its operand words written (R100). -/
def Obligations.ResultChangesOnlyByLegalCompletion : Prop :=
  ∀ s t : State, step s = .next t → s.nextTurn ≠ .reset →
    (t.dout = s.dout ∧ t.wrDout = s.wrDout) ∨
      (s.nextTurn = .core ∧ s.busy = true ∧ ∃ i, decode s.cmd = .ok i ∧ (modelStep s = .next t → s.operandsWritten i = true))

/-- R23, R118, R119, D29: BUSY rises only by a host write of CMD and falls only by a completion, ERR changes only at a
completion, and CMD changes only by a host write of CMD; but for reset. -/
def Obligations.StatusChangesOnlyByLifeCycle : Prop :=
  ∀ s t : State, step s = .next t → s.nextTurn ≠ .reset →
    (s.busy = false → t.busy = true → s.nextTurn.writesTo .cmd) ∧
    (s.busy = true → t.busy = false → s.nextTurn = .core) ∧
    (t.err ≠ s.err → s.nextTurn = .core ∧ s.busy = true ∧ t.busy = false) ∧
    (t.cmd ≠ s.cmd → s.nextTurn.writesTo .cmd)

/-- R30: no step but reset clears a wr_ flag. -/
def Obligations.WrittenFlagsNeverClear : Prop :=
  ∀ s t : State, step s = .next t → s.nextTurn ≠ .reset → s.flagsKept t

/-- R30: every step keeps the four wr_DOUT flags all 0 or all 1. -/
def Obligations.StepKeepsResultFlagsUniform : Prop :=
  ∀ s t : State, s.doutFlagsUniform → step s = .next t → t.doutFlagsUniform

/-- R31: the wr_DOUT flags are uniform at reset. -/
def Obligations.ResetResultFlagsUniform : Prop :=
  State.reset.doutFlagsUniform

/-- R23: STATUS reads BUSY at bit 0, ERR at bit 1 and 0 in bits 31:2, in every state. -/
def Obligations.StatusReadsBusyAndErr : Prop :=
  ∀ s : State, s.status.getLsbD 0 = s.busy ∧ s.status.getLsbD 1 = s.err ∧ s.status.extractLsb' 2 30 = 0#30

/-- R29, R31, R99, R100, D16: two states that differ only in the values of unwritten words step, in the spec's model,
to outcomes that differ only there, so no run of it can tell what KEY, DIN and DOUT hold after reset (Assumption 1). -/
def Obligations.UnwrittenValuesAreUnobservable : Prop :=
  ∀ s t : State, s.sameWritten t → outcomesAgree State.sameWritten (modelStep s) (modelStep t)

/-- R39, R43, R44 and the model's own turns (Assumption 6): a step takes exactly one turn, and the host receives a value
only from a read of its own. -/
def Obligations.StepTakesOneTurn : Prop :=
  ∀ s t : State, step s = .next t →
    t.turns = s.turns.tail ∧
    (t.received = s.received ∨ ∃ (r : Reg) (v : Word), s.nextTurn = rd Config.pBase r ∧ t.received = s.received ++ [v])

/-- R120: an issued command completes after any finite number of polls, each of which sees BUSY = 1; with the polls
taken, the core's turn comes without being listed, which is the model's choice (Assumption 6) for the fairness that R120
assumes. That a legal command completes where an operand word is unwritten too is the model's choice (Assumption 2): the
machine is R100's hardware, and the spec's model faults there (R119). -/
def Obligations.PolledCommandCompletes : Prop :=
  ∀ (n : Nat) (s : State), s.busy = true →
    ∃ t : State, runSteps (n + 1) (s.withTurns (polls Config.pBase n)) = .next t ∧ t.busy = false ∧ t.turns = [] ∧
      t.received = s.received ++ List.replicate n s.status

/-- R60, R96, R117: the pseudo-instruction `decrypt`, from any state with no command in flight and with any number of
polls, ends, on the machine and in the spec's model, with the plaintext of the two-round transform in DOUT and in the last four words the host received. -/
def Obligations.DecryptProgramReturnsPlaintext : Prop :=
  ∀ (s : State) (ct : Block) (key : Key) (n : Nat) (ts : List Turn), s.busy = false →
    ∃ t : State, (s.withTurns (decryptTurns Config.pBase ct key n ++ ts)).runsTo (n + 15) t ∧
      t.key = key ∧ t.din = ct ∧ t.dout = decrypt s.rom ct key ∧ t.cmd = 0x00000005#32 ∧ t.status = 0x00000000#32 ∧
      t.rom = s.rom ∧ t.turns = ts ∧
      ∃ p0 p1 p2 p3 : Word, p0 ++ p1 ++ p2 ++ p3 = decrypt s.rom ct key ∧
        t.received = s.received ++ List.replicate n (0#30 ++ (BitVec.ofBool s.err ++ 1#1)) ++ [0x00000000#32] ++ [p0, p1, p2, p3]

/-- R117, R121, R122: a host that keeps the BUSY rule, reads only written words and issues a command only with its
operand words written never faults, in the spec's model and so on the machine. -/
def Obligations.WellBehavedHostNeverFaults : Prop :=
  ∀ s : State,
    (∀ a, s.nextTurn = .host a → (s.busy = true → a.breaksBusyRule Config.pBase = false) ∧ a.readsUnwritten Config.pBase s = false) →
    (s.nextTurn = .core → s.busy = true → ∀ i, decode s.cmd = .ok i → s.operandsWritten i = true) →
    ∀ e, modelStep s ≠ .fault e

/-! ### The machine and the spec's model (60_exceptions.md R99, R100, Assumption 2) -/

/-- R99, R100 ("errs toward unprovable"), R97, R101, R104: what the spec's model answers, the machine answers; a hazard of
the machine is a fault of the model for the same reason; both refuse the same accesses; and where the machine goes on and
the model does not, the reason is an unwritten word. -/
def Obligations.ModelErrsTowardUnprovable : Prop :=
  (∀ s t : State, modelStep s = .next t → step s = .next t) ∧
  (∀ (s : State) (e : Fault), step s = .fault e → modelStep s = .fault e.reason) ∧
  (∀ (s : State) (e : Refusal), step s = .refused e ↔ modelStep s = .refused e) ∧
  (∀ s t : State, step s = .next t →
    modelStep s = .next t ∨ modelStep s = .fault .unwrittenRead ∨ modelStep s = .fault .unwrittenOperand)

/-- R99: a host read faults UNWRITTEN_READ in the spec's model exactly when nothing has written its word since reset (and
no hazard comes first, R104); the machine, where that value is the one the register holds (Assumptions 2 and 17), then
returns it. -/
def Obligations.UnwrittenReadFaultsExactly : Prop :=
  ∀ (s : State) (r : Reg) (ts : List Turn),
    (modelStep (s.withTurns (rd Config.pBase r :: ts)) = .fault .unwrittenRead ↔
      ∃ w : Fin 4, (r = .key w ∧ s.wrKey[w] = false) ∨ (r = .din w ∧ s.wrDin[w] = false) ∨
        (r = .dout w ∧ s.busy = false ∧ s.wrDout[w] = false)) ∧
    (modelStep (s.withTurns (rd Config.pBase r :: ts)) = .fault .unwrittenRead →
      ∃ v : Word, step (s.withTurns (rd Config.pBase r :: ts)) = .next { s with turns := ts, received := s.received ++ [v] })

/-- R100: where the completion of a command faults UNWRITTEN_OPERAND in the spec's model, "the hardware computes a result
from whatever the register holds": the machine (Assumption 2) completes it by the command's own rule (R65, R69, R78, R85,
R96). -/
def Obligations.UnwrittenOperandOnHardware : Prop :=
  ∀ (s : State) (ts : List Turn), modelStep (s.withTurns (.core :: ts)) = .fault .unwrittenOperand →
    ∃ (i : Instr) (d : Block), decode s.cmd = .ok i ∧
      step (s.withTurns (.core :: ts)) =
        .next { s with turns := ts, dout := d, wrDout := Vector.replicate 4 true, err := false, busy := false } ∧
      match i with
      | .tlu t => d = 0#96 ++ s.rom.T t (s.din.extractLsb' 0 8)
      | .g => d = 0#96 ++ confusion s.rom (s.din.extractLsb' 0 32)
      | .ks r => d = (keySchedule s.rom s.key r).k0 ++ (keySchedule s.rom s.key r).k1 ++ 0#64
      | .f => d = 0#64 ++ roundFunction s.rom ⟨s.din.extractLsb' 96 32, s.din.extractLsb' 64 32⟩ (s.din.extractLsb' 0 64)
      | .dec => d = decrypt s.rom s.din s.key

/-! ### The source's two errors (60_exceptions.md R103) -/

/-- R103, R24, R25: a configuration given as lists is accepted exactly when there are four tables of 256 Words and 16
constants, and the ROM then holds the lists' entries. The condition on the constants is the model's choice (Assumption
13): R103 checks the tables alone. -/
def Obligations.MalformedTablesRefused : Prop :=
  (∀ (ts : List (List Word)) (cs : List Word),
    (∃ r, Rom.ofLists ts cs = .ok r) ↔ (ts.length = 4 ∧ (∀ t ∈ ts, t.length = 256) ∧ cs.length = 16)) ∧
  (∀ (ts : List (List Word)) (cs : List Word) (r : Rom), Rom.ofLists ts cs = .ok r →
    (∀ (t : TableNumber) (i : TableIndex), ∃ l, ts[t.toNat]? = some l ∧ l[i.toNat]? = some (r.T t i)) ∧
    (∀ j : RoundNumber, cs[j.val - 1]? = some (r.RC j)))

/-- R103: host software accepts exactly the numbers below 2^128, without truncating any. -/
def Obligations.OutOfRangeNumbersRejected : Prop :=
  ∀ n : Nat,
    (n < 2 ^ 128 → ∃ b, numberToBlock n = .ok b ∧ b.toNat = n) ∧ (2 ^ 128 ≤ n → numberToBlock n = .error .outOfRange)
end

