-- ==== Sys2Proof/Laws/State.lean ====
section
/-! SUPPORT. One lemma per field per update of the state, so that no later proof unfolds a record update. -/

namespace Sys2Proof.Machine

open Sys2Proof

@[simp] theorem State.withTurns_key (s : State) (ts : List Turn) : (s.withTurns ts).key = s.key := rfl
@[simp] theorem State.withTurns_din (s : State) (ts : List Turn) : (s.withTurns ts).din = s.din := rfl
@[simp] theorem State.withTurns_dout (s : State) (ts : List Turn) : (s.withTurns ts).dout = s.dout := rfl
@[simp] theorem State.withTurns_cmd (s : State) (ts : List Turn) : (s.withTurns ts).cmd = s.cmd := rfl
@[simp] theorem State.withTurns_busy (s : State) (ts : List Turn) : (s.withTurns ts).busy = s.busy := rfl
@[simp] theorem State.withTurns_err (s : State) (ts : List Turn) : (s.withTurns ts).err = s.err := rfl
@[simp] theorem State.withTurns_wrKey (s : State) (ts : List Turn) : (s.withTurns ts).wrKey = s.wrKey := rfl
@[simp] theorem State.withTurns_wrDin (s : State) (ts : List Turn) : (s.withTurns ts).wrDin = s.wrDin := rfl
@[simp] theorem State.withTurns_wrDout (s : State) (ts : List Turn) : (s.withTurns ts).wrDout = s.wrDout := rfl
@[simp] theorem State.withTurns_rom (s : State) (ts : List Turn) : (s.withTurns ts).rom = s.rom := rfl
@[simp] theorem State.withTurns_turns (s : State) (ts : List Turn) : (s.withTurns ts).turns = ts := rfl
@[simp] theorem State.withTurns_received (s : State) (ts : List Turn) : (s.withTurns ts).received = s.received := rfl

@[simp] theorem State.flagIssued_key (s : State) : s.flagIssued.key = s.key := rfl
@[simp] theorem State.flagIssued_din (s : State) : s.flagIssued.din = s.din := rfl
@[simp] theorem State.flagIssued_dout (s : State) : s.flagIssued.dout = s.dout := rfl
@[simp] theorem State.flagIssued_cmd (s : State) : s.flagIssued.cmd = s.cmd := rfl
@[simp] theorem State.flagIssued_busy (s : State) : s.flagIssued.busy = true := rfl
@[simp] theorem State.flagIssued_err (s : State) : s.flagIssued.err = s.err := rfl
@[simp] theorem State.flagIssued_wrKey (s : State) : s.flagIssued.wrKey = s.wrKey := rfl
@[simp] theorem State.flagIssued_wrDin (s : State) : s.flagIssued.wrDin = s.wrDin := rfl
@[simp] theorem State.flagIssued_wrDout (s : State) : s.flagIssued.wrDout = s.wrDout := rfl
@[simp] theorem State.flagIssued_rom (s : State) : s.flagIssued.rom = s.rom := rfl
@[simp] theorem State.flagIssued_turns (s : State) : s.flagIssued.turns = s.turns := rfl
@[simp] theorem State.flagIssued_received (s : State) : s.flagIssued.received = s.received := rfl

@[simp] theorem State.flagCompleted_key (s : State) (illegal : Bool) : (s.flagCompleted illegal).key = s.key := rfl
@[simp] theorem State.flagCompleted_din (s : State) (illegal : Bool) : (s.flagCompleted illegal).din = s.din := rfl
@[simp] theorem State.flagCompleted_dout (s : State) (illegal : Bool) : (s.flagCompleted illegal).dout = s.dout := rfl
@[simp] theorem State.flagCompleted_cmd (s : State) (illegal : Bool) : (s.flagCompleted illegal).cmd = s.cmd := rfl
@[simp] theorem State.flagCompleted_busy (s : State) (illegal : Bool) : (s.flagCompleted illegal).busy = false := rfl
@[simp] theorem State.flagCompleted_err (s : State) (illegal : Bool) : (s.flagCompleted illegal).err = illegal := rfl
@[simp] theorem State.flagCompleted_wrKey (s : State) (illegal : Bool) : (s.flagCompleted illegal).wrKey = s.wrKey := rfl
@[simp] theorem State.flagCompleted_wrDin (s : State) (illegal : Bool) : (s.flagCompleted illegal).wrDin = s.wrDin := rfl
@[simp] theorem State.flagCompleted_wrDout (s : State) (illegal : Bool) : (s.flagCompleted illegal).wrDout = s.wrDout := rfl
@[simp] theorem State.flagCompleted_rom (s : State) (illegal : Bool) : (s.flagCompleted illegal).rom = s.rom := rfl
@[simp] theorem State.flagCompleted_turns (s : State) (illegal : Bool) : (s.flagCompleted illegal).turns = s.turns := rfl
@[simp] theorem State.flagCompleted_received (s : State) (illegal : Bool) : (s.flagCompleted illegal).received = s.received := rfl

@[simp] theorem State.writeKey_key (s : State) (w : Fin 4) (v : Word) : (s.writeKey w v).key = putWord s.key w v := rfl
@[simp] theorem State.writeKey_din (s : State) (w : Fin 4) (v : Word) : (s.writeKey w v).din = s.din := rfl
@[simp] theorem State.writeKey_dout (s : State) (w : Fin 4) (v : Word) : (s.writeKey w v).dout = s.dout := rfl
@[simp] theorem State.writeKey_cmd (s : State) (w : Fin 4) (v : Word) : (s.writeKey w v).cmd = s.cmd := rfl
@[simp] theorem State.writeKey_busy (s : State) (w : Fin 4) (v : Word) : (s.writeKey w v).busy = s.busy := rfl
@[simp] theorem State.writeKey_err (s : State) (w : Fin 4) (v : Word) : (s.writeKey w v).err = s.err := rfl
@[simp] theorem State.writeKey_wrKey (s : State) (w : Fin 4) (v : Word) : (s.writeKey w v).wrKey = s.wrKey.set w true := rfl
@[simp] theorem State.writeKey_wrDin (s : State) (w : Fin 4) (v : Word) : (s.writeKey w v).wrDin = s.wrDin := rfl
@[simp] theorem State.writeKey_wrDout (s : State) (w : Fin 4) (v : Word) : (s.writeKey w v).wrDout = s.wrDout := rfl
@[simp] theorem State.writeKey_rom (s : State) (w : Fin 4) (v : Word) : (s.writeKey w v).rom = s.rom := rfl
@[simp] theorem State.writeKey_turns (s : State) (w : Fin 4) (v : Word) : (s.writeKey w v).turns = s.turns := rfl
@[simp] theorem State.writeKey_received (s : State) (w : Fin 4) (v : Word) : (s.writeKey w v).received = s.received := rfl

@[simp] theorem State.writeDin_key (s : State) (w : Fin 4) (v : Word) : (s.writeDin w v).key = s.key := rfl
@[simp] theorem State.writeDin_din (s : State) (w : Fin 4) (v : Word) : (s.writeDin w v).din = putWord s.din w v := rfl
@[simp] theorem State.writeDin_dout (s : State) (w : Fin 4) (v : Word) : (s.writeDin w v).dout = s.dout := rfl
@[simp] theorem State.writeDin_cmd (s : State) (w : Fin 4) (v : Word) : (s.writeDin w v).cmd = s.cmd := rfl
@[simp] theorem State.writeDin_busy (s : State) (w : Fin 4) (v : Word) : (s.writeDin w v).busy = s.busy := rfl
@[simp] theorem State.writeDin_err (s : State) (w : Fin 4) (v : Word) : (s.writeDin w v).err = s.err := rfl
@[simp] theorem State.writeDin_wrKey (s : State) (w : Fin 4) (v : Word) : (s.writeDin w v).wrKey = s.wrKey := rfl
@[simp] theorem State.writeDin_wrDin (s : State) (w : Fin 4) (v : Word) : (s.writeDin w v).wrDin = s.wrDin.set w true := rfl
@[simp] theorem State.writeDin_wrDout (s : State) (w : Fin 4) (v : Word) : (s.writeDin w v).wrDout = s.wrDout := rfl
@[simp] theorem State.writeDin_rom (s : State) (w : Fin 4) (v : Word) : (s.writeDin w v).rom = s.rom := rfl
@[simp] theorem State.writeDin_turns (s : State) (w : Fin 4) (v : Word) : (s.writeDin w v).turns = s.turns := rfl
@[simp] theorem State.writeDin_received (s : State) (w : Fin 4) (v : Word) : (s.writeDin w v).received = s.received := rfl

@[simp] theorem State.issue_key (s : State) (v : Word) : (s.issue v).key = s.key := rfl
@[simp] theorem State.issue_din (s : State) (v : Word) : (s.issue v).din = s.din := rfl
@[simp] theorem State.issue_dout (s : State) (v : Word) : (s.issue v).dout = s.dout := rfl
@[simp] theorem State.issue_cmd (s : State) (v : Word) : (s.issue v).cmd = v := rfl
@[simp] theorem State.issue_busy (s : State) (v : Word) : (s.issue v).busy = true := rfl
@[simp] theorem State.issue_err (s : State) (v : Word) : (s.issue v).err = s.err := rfl
@[simp] theorem State.issue_wrKey (s : State) (v : Word) : (s.issue v).wrKey = s.wrKey := rfl
@[simp] theorem State.issue_wrDin (s : State) (v : Word) : (s.issue v).wrDin = s.wrDin := rfl
@[simp] theorem State.issue_wrDout (s : State) (v : Word) : (s.issue v).wrDout = s.wrDout := rfl
@[simp] theorem State.issue_rom (s : State) (v : Word) : (s.issue v).rom = s.rom := rfl
@[simp] theorem State.issue_turns (s : State) (v : Word) : (s.issue v).turns = s.turns := rfl
@[simp] theorem State.issue_received (s : State) (v : Word) : (s.issue v).received = s.received := rfl

@[simp] theorem State.commit_key (s : State) (result : Block) : (s.commit result).key = s.key := rfl
@[simp] theorem State.commit_din (s : State) (result : Block) : (s.commit result).din = s.din := rfl
@[simp] theorem State.commit_dout (s : State) (result : Block) : (s.commit result).dout = result := rfl
@[simp] theorem State.commit_cmd (s : State) (result : Block) : (s.commit result).cmd = s.cmd := rfl
@[simp] theorem State.commit_busy (s : State) (result : Block) : (s.commit result).busy = false := rfl
@[simp] theorem State.commit_err (s : State) (result : Block) : (s.commit result).err = false := rfl
@[simp] theorem State.commit_wrKey (s : State) (result : Block) : (s.commit result).wrKey = s.wrKey := rfl
@[simp] theorem State.commit_wrDin (s : State) (result : Block) : (s.commit result).wrDin = s.wrDin := rfl
@[simp] theorem State.commit_wrDout (s : State) (result : Block) : (s.commit result).wrDout = allWritten := rfl
@[simp] theorem State.commit_rom (s : State) (result : Block) : (s.commit result).rom = s.rom := rfl
@[simp] theorem State.commit_turns (s : State) (result : Block) : (s.commit result).turns = s.turns := rfl
@[simp] theorem State.commit_received (s : State) (result : Block) : (s.commit result).received = s.received := rfl

@[simp] theorem State.completeIllegal_key (s : State) : s.completeIllegal.key = s.key := rfl
@[simp] theorem State.completeIllegal_din (s : State) : s.completeIllegal.din = s.din := rfl
@[simp] theorem State.completeIllegal_dout (s : State) : s.completeIllegal.dout = s.dout := rfl
@[simp] theorem State.completeIllegal_cmd (s : State) : s.completeIllegal.cmd = s.cmd := rfl
@[simp] theorem State.completeIllegal_busy (s : State) : s.completeIllegal.busy = false := rfl
@[simp] theorem State.completeIllegal_err (s : State) : s.completeIllegal.err = true := rfl
@[simp] theorem State.completeIllegal_wrKey (s : State) : s.completeIllegal.wrKey = s.wrKey := rfl
@[simp] theorem State.completeIllegal_wrDin (s : State) : s.completeIllegal.wrDin = s.wrDin := rfl
@[simp] theorem State.completeIllegal_wrDout (s : State) : s.completeIllegal.wrDout = s.wrDout := rfl
@[simp] theorem State.completeIllegal_rom (s : State) : s.completeIllegal.rom = s.rom := rfl
@[simp] theorem State.completeIllegal_turns (s : State) : s.completeIllegal.turns = s.turns := rfl
@[simp] theorem State.completeIllegal_received (s : State) : s.completeIllegal.received = s.received := rfl

@[simp] theorem State.receive_key (s : State) (v : Word) : (s.receive v).key = s.key := rfl
@[simp] theorem State.receive_din (s : State) (v : Word) : (s.receive v).din = s.din := rfl
@[simp] theorem State.receive_dout (s : State) (v : Word) : (s.receive v).dout = s.dout := rfl
@[simp] theorem State.receive_cmd (s : State) (v : Word) : (s.receive v).cmd = s.cmd := rfl
@[simp] theorem State.receive_busy (s : State) (v : Word) : (s.receive v).busy = s.busy := rfl
@[simp] theorem State.receive_err (s : State) (v : Word) : (s.receive v).err = s.err := rfl
@[simp] theorem State.receive_wrKey (s : State) (v : Word) : (s.receive v).wrKey = s.wrKey := rfl
@[simp] theorem State.receive_wrDin (s : State) (v : Word) : (s.receive v).wrDin = s.wrDin := rfl
@[simp] theorem State.receive_wrDout (s : State) (v : Word) : (s.receive v).wrDout = s.wrDout := rfl
@[simp] theorem State.receive_rom (s : State) (v : Word) : (s.receive v).rom = s.rom := rfl
@[simp] theorem State.receive_turns (s : State) (v : Word) : (s.receive v).turns = s.turns := rfl
@[simp] theorem State.receive_received (s : State) (v : Word) : (s.receive v).received = s.received ++ [v] := rfl

@[simp] theorem State.platformReset_key (s : State) : s.platformReset.key = 0 := rfl
@[simp] theorem State.platformReset_din (s : State) : s.platformReset.din = 0 := rfl
@[simp] theorem State.platformReset_dout (s : State) : s.platformReset.dout = 0 := rfl
@[simp] theorem State.platformReset_cmd (s : State) : s.platformReset.cmd = 0 := rfl
@[simp] theorem State.platformReset_busy (s : State) : s.platformReset.busy = false := rfl
@[simp] theorem State.platformReset_err (s : State) : s.platformReset.err = false := rfl
@[simp] theorem State.platformReset_wrKey (s : State) : s.platformReset.wrKey = noneWritten := rfl
@[simp] theorem State.platformReset_wrDin (s : State) : s.platformReset.wrDin = noneWritten := rfl
@[simp] theorem State.platformReset_wrDout (s : State) : s.platformReset.wrDout = noneWritten := rfl
@[simp] theorem State.platformReset_rom (s : State) : s.platformReset.rom = s.rom := rfl
@[simp] theorem State.platformReset_turns (s : State) : s.platformReset.turns = s.turns := rfl
@[simp] theorem State.platformReset_received (s : State) : s.platformReset.received = s.received := rfl

@[simp] theorem issueNext_key (s : State) (c : Word) : (issueNext s c).key = s.key := rfl
@[simp] theorem issueNext_din (s : State) (c : Word) : (issueNext s c).din = s.din := rfl
@[simp] theorem issueNext_dout (s : State) (c : Word) : (issueNext s c).dout = s.dout := rfl
@[simp] theorem issueNext_cmd (s : State) (c : Word) : (issueNext s c).cmd = c := rfl
@[simp] theorem issueNext_busy (s : State) (c : Word) : (issueNext s c).busy = true := rfl
@[simp] theorem issueNext_err (s : State) (c : Word) : (issueNext s c).err = s.err := rfl
@[simp] theorem issueNext_wrKey (s : State) (c : Word) : (issueNext s c).wrKey = s.wrKey := rfl
@[simp] theorem issueNext_wrDin (s : State) (c : Word) : (issueNext s c).wrDin = s.wrDin := rfl
@[simp] theorem issueNext_wrDout (s : State) (c : Word) : (issueNext s c).wrDout = s.wrDout := rfl
@[simp] theorem issueNext_rom (s : State) (c : Word) : (issueNext s c).rom = s.rom := rfl
@[simp] theorem issueNext_turns (s : State) (c : Word) : (issueNext s c).turns = .core :: s.turns := rfl
@[simp] theorem issueNext_received (s : State) (c : Word) : (issueNext s c).received = s.received := rfl

@[simp] theorem State.withTurns_withTurns (s : State) (ts us : List Turn) :
    (s.withTurns ts).withTurns us = s.withTurns us := rfl

@[simp] theorem State.withTurns_turns_self (s : State) : s.withTurns s.turns = s := rfl

/-- A read of STATUS sees only BUSY and ERR. -/
theorem State.status_eq (s : State) : s.status = statusWord s.busy s.err := rfl

@[simp] theorem allWritten_getElem (i : Nat) (h : i < 4) : allWritten[i] = true := by
  simp [allWritten]

@[simp] theorem noneWritten_getElem (i : Nat) (h : i < 4) : noneWritten[i] = false := by
  simp [noneWritten]

/-- A row of wr_ flags is all 1 when each of its flags is. -/
theorem eq_allWritten {f : Vector Bool 4} (h : ∀ w : Fin 4, f[w] = true) : f = allWritten := by
  apply Vector.ext
  intro i hi
  have := h ⟨i, hi⟩
  simpa [allWritten] using this

/-- Setting a flag sets that flag. -/
theorem flag_set_same (f : Vector Bool 4) (w : Fin 4) : (f.set w true)[w] = true := by
  simp

/-- Setting a flag clears no flag. -/
theorem flag_set_mono (f : Vector Bool 4) (w w' : Fin 4) (h : f[w'] = true) : (f.set w true)[w'] = true := by
  simp only [Fin.getElem_fin] at *
  rw [Vector.getElem_set]
  split <;> simp [h]

/-- Setting a flag changes no other flag. -/
theorem flag_set_ne (f : Vector Bool 4) {w w' : Fin 4} (h : w ≠ w') : (f.set w true)[w'] = f[w'] := by
  simp only [Fin.getElem_fin]
  exact Vector.getElem_set_ne (by omega) (by omega) (by omega)

end Sys2Proof.Machine
end

