-- ==== Sys2Proof/Laws/Words.lean ====
section
/-! SUPPORT. The four words of a 128-bit register (spec/20_memory.md R34) and the operands as words. -/

namespace Sys2Proof.Machine

open Sys2Proof

section

/-! Bit i of a concatenation, at the widths of the registers: simp finds these at a literal width. -/

theorem getLsbD_append_32_32 (x y : BitVec 32) (i : Nat) :
    BitVec.getLsbD (w := 64) (x ++ y) i = if i < 32 then y.getLsbD i else x.getLsbD (i - 32) :=
  BitVec.getLsbD_append

theorem getLsbD_append_96_32 (x : BitVec 96) (y : BitVec 32) (i : Nat) :
    BitVec.getLsbD (w := 128) (x ++ y) i = if i < 32 then y.getLsbD i else x.getLsbD (i - 32) :=
  BitVec.getLsbD_append

theorem getLsbD_append_32_96 (x : BitVec 32) (y : BitVec 96) (i : Nat) :
    BitVec.getLsbD (w := 128) (x ++ y) i = if i < 96 then y.getLsbD i else x.getLsbD (i - 96) :=
  BitVec.getLsbD_append

theorem getLsbD_append_64_64 (x y : BitVec 64) (i : Nat) :
    BitVec.getLsbD (w := 128) (x ++ y) i = if i < 64 then y.getLsbD i else x.getLsbD (i - 64) :=
  BitVec.getLsbD_append

end

/-- Bit i of word w, counted in the whole register (R34). -/
theorem getLsbD_getWord (q : BitVec 128) (w : Fin 4) (i : Nat) :
    (getWord q w).getLsbD i = (decide (i < 32) && q.getLsbD (96 - 32 * w.val + i)) := by
  simp [getWord]

/-- Bit i of a register with word w replaced. -/
theorem getLsbD_putWord (q : BitVec 128) (w : Fin 4) (v : Word) (i : Nat) (hi : i < 128) :
    (putWord q w v).getLsbD i =
      if 96 - 32 * w.val ≤ i ∧ i < 128 - 32 * w.val then v.getLsbD (i - (96 - 32 * w.val)) else q.getLsbD i := by
  fin_cases w <;>
    simp only [putWord, getLsbD_append_96_32, getLsbD_append_32_96, BitVec.getLsbD_extractLsb'] <;> grind

/-- A word that has been written reads back. -/
@[simp] theorem getWord_putWord_same (q : BitVec 128) (w : Fin 4) (v : Word) : getWord (putWord q w v) w = v := by
  apply BitVec.eq_of_getLsbD_eq
  intro i hi
  rw [getLsbD_getWord, getLsbD_putWord _ _ _ _ (by omega)]
  grind

/-- A write of one word leaves every other word as it was. -/
theorem getWord_putWord_ne (q : BitVec 128) {w w' : Fin 4} (v : Word) (h : w ≠ w') :
    getWord (putWord q w v) w' = getWord q w' := by
  apply BitVec.eq_of_getLsbD_eq
  intro i hi
  rw [getLsbD_getWord, getLsbD_getWord, getLsbD_putWord _ _ _ _ (by omega)]
  grind

/-- Word w of a concatenation of four words. -/
theorem getWord_append (a b c d : Word) (w : Fin 4) :
    getWord (a ++ b ++ c ++ d) w = match w with | 0 => a | 1 => b | 2 => c | 3 => d := by
  apply BitVec.eq_of_getLsbD_eq
  intro i hi
  fin_cases w <;> simp only [getLsbD_getWord] <;> grind

/-- Two 128-bit registers with the same four words are equal. -/
theorem eq_of_words {p q : BitVec 128} (h : ∀ w : Fin 4, getWord p w = getWord q w) : p = q := by
  apply BitVec.eq_of_getLsbD_eq
  intro i hi
  have hw := congrArg (fun x => BitVec.getLsbD x (i % 32)) (h ⟨3 - i / 32, by omega⟩)
  simp only [getLsbD_getWord] at hw
  have hidx : 96 - 32 * (3 - i / 32) + i % 32 = i := by omega
  simpa [hidx, Nat.mod_lt] using hw

/-- A 128-bit register is the concatenation of its four words, word 0 most significant (R34). -/
theorem append_words (q : BitVec 128) : getWord q 0 ++ getWord q 1 ++ getWord q 2 ++ getWord q 3 = q := by
  apply eq_of_words
  intro w
  rw [getWord_append]
  fin_cases w <;> rfl

theorem State.opWord_eq (s : State) : s.opWord = getWord s.din 3 := rfl

theorem State.opIndex_eq (s : State) : s.opIndex = (getWord s.din 3).extractLsb' 0 8 := by
  apply BitVec.eq_of_getLsbD_eq
  intro i hi
  simp [State.opIndex, getWord]

theorem State.opPair_eq (s : State) : s.opPair = { k0 := getWord s.din 0, k1 := getWord s.din 1 } := rfl

theorem State.opHalf_eq (s : State) : s.opHalf = getWord s.din 2 ++ getWord s.din 3 := by
  apply BitVec.eq_of_getLsbD_eq
  intro i hi
  simp only [State.opHalf, getLsbD_append_32_32, getLsbD_getWord, BitVec.getLsbD_extractLsb']
  grind

@[simp] theorem leftHalf_append (l r : HalfBlock) : leftHalf (l ++ r) = l := by
  apply BitVec.eq_of_getLsbD_eq
  intro i hi
  simp only [leftHalf, getLsbD_append_64_64, BitVec.getLsbD_extractLsb']
  grind

@[simp] theorem rightHalf_append (l r : HalfBlock) : rightHalf (l ++ r) = r := by
  apply BitVec.eq_of_getLsbD_eq
  intro i hi
  simp only [rightHalf, getLsbD_append_64_64, BitVec.getLsbD_extractLsb']
  grind

/-- A Word that enters DOUT is under 96 zero bits (R13, R65, R69). -/
theorem resultWord_eq (x : Word) : resultWord x = 0#96 ++ x := by
  apply BitVec.eq_of_getLsbD_eq
  intro i hi
  simp [resultWord]
  grind

/-- A HalfBlock that enters DOUT is under 64 zero bits (R13, R85). -/
theorem resultHalf_eq (x : HalfBlock) : resultHalf x = 0#64 ++ x := by
  apply BitVec.eq_of_getLsbD_eq
  intro i hi
  simp [resultHalf]
  grind

/-- DOUT holds K's pair in its upper half (R78). -/
@[simp] theorem leftHalf_resultPair (kp : RoundKeyPair) : leftHalf (resultPair kp) = kp.k0 ++ kp.k1 :=
  leftHalf_append _ _

/-- DOUT holds F's half-block in its lower half (R85). -/
@[simp] theorem rightHalf_resultHalf (x : HalfBlock) : rightHalf (resultHalf x) = x := by
  rw [resultHalf_eq]
  exact rightHalf_append _ _

/-- A Block is its two halves (R11). -/
theorem append_halves (b : Block) : leftHalf b ++ rightHalf b = b := by
  apply BitVec.eq_of_getLsbD_eq
  intro i hi
  simp only [leftHalf, rightHalf, getLsbD_append_64_64, BitVec.getLsbD_extractLsb']
  grind

end Sys2Proof.Machine
end

