-- ==== Sys2Proof/Laws/Ops.lean ====
section
/-! SUPPORT. What each shared operation can do, said once: the completion of a command, the host's access, the turn, the
step. -/

namespace Sys2Proof.Machine

open Sys2Proof

/-- The result a command computes from a state (R65, R69, R78, R85, R96). -/
def resultOf (i : Instr) (s : State) : Block :=
  match i with
  | .tlu t => resultWord (s.rom.T t s.opIndex)
  | .g => resultWord (confusion s.rom s.opWord)
  | .ks r => resultPair (keySchedule s.rom s.opKey r)
  | .f => resultHalf (roundFunction s.rom s.opPair s.opHalf)
  | .dec => decrypt s.rom s.opBlock s.opKey

/-- Every command completes, through the one shared completion: it commits its result. -/
theorem exec_eq (i : Instr) (s : State) : exec i s = .next (s.commit (resultOf i s)) := by
  cases i <;> rfl

/-- What a completion can do. -/
theorem complete_next_cases {s t : State} (h : complete s = .next t) :
    ((∃ e, decode s.cmd = .error e) ∧ t = s.completeIllegal) ∨
      ∃ i, decode s.cmd = .ok i ∧ t = s.commit (resultOf i s) := by
  unfold complete at h
  split at h
  · next e he => exact .inl ⟨⟨e, he⟩, by simpa [eq_comm] using h⟩
  · next i hi =>
    rw [exec_eq] at h
    exact .inr ⟨i, hi, by simpa [eq_comm] using h⟩

/-- What the core's turn can do. -/
theorem coreTurn_next_cases {s t : State} (h : coreTurn s = .next t) :
    (s.busy = false ∧ t = s) ∨ (s.busy = true ∧ complete s = .next t) := by
  unfold coreTurn at h
  split at h
  · next hb => exact .inr ⟨hb, h⟩
  · next hb => exact .inl ⟨by simpa using hb, by simpa [eq_comm] using h⟩

/-- What an admitted write can do. -/
theorem hostWrite_ok_cases {s t : State} {r : Reg} {v : Word} (h : hostWrite s r v = .ok t) :
    (∃ w, r = .key w ∧ s.busy = false ∧ t = s.writeKey w v) ∨ (∃ w, r = .din w ∧ s.busy = false ∧ t = s.writeDin w v) ∨
      (r = .cmd ∧ s.busy = false ∧ t = s.issue v) ∨ (t = s ∧ ((∃ w, r = .dout w) ∨ r = .status)) := by
  cases r <;> simp only [hostWrite] at h
  · split at h <;> simp_all
  · split at h <;> simp_all
  · simp_all
  · split at h <;> simp_all
  · simp_all

/-- What a host step can do: a read changes only what the host has received, and a write is one of R38's. -/
theorem busAccess_next_cases {base : Nat} {a : Access} {s t : State} (h : busAccess base a s = .next t) :
    (∃ n ad r v, a = .read n ad ∧ admission base a = .ok r ∧ hostRead s r = .ok v ∧ t = s.receive v) ∨
      (∃ n ad v r, a = .write n ad v ∧ admission base a = .ok r ∧ hostWrite s r v = .ok t) := by
  unfold busAccess at h
  split at h
  · simp at h
  · next r hr =>
    cases a with
    | read n ad =>
      simp only at h
      split at h
      · next v hv => exact .inl ⟨n, ad, r, v, rfl, hr, hv, by simpa [eq_comm] using h⟩
      · simp at h
    | write n ad v =>
      simp only at h
      split at h
      · next u hu => exact .inr ⟨n, ad, v, r, rfl, hr, by simpa using (by simpa using h : u = t) ▸ hu⟩
      · simp at h

/-- What a step can do: the core's turn (listed or not), one access of the host, or a reset. -/
theorem step_next_cases {s t : State} (h : step s = .next t) :
    (s.turns = [] ∧ coreTurn s = .next t) ∨ (∃ ts, s.turns = .core :: ts ∧ coreTurn (s.withTurns ts) = .next t) ∨
      (∃ a ts, s.turns = .host a :: ts ∧ busAccess Config.pBase a (s.withTurns ts) = .next t) ∨
      (∃ ts, s.turns = .reset :: ts ∧ t = (s.withTurns ts).platformReset) := by
  unfold step takeTurn at h
  split at h
  · next hn => exact .inl ⟨hn, h⟩
  · next ts hn => exact .inr (.inl ⟨ts, hn, h⟩)
  · next a ts hn => exact .inr (.inr (.inl ⟨a, ts, hn, h⟩))
  · next ts hn => exact .inr (.inr (.inr ⟨ts, hn, by simpa [eq_comm] using h⟩))

/-- A step with the core's turn listed first. -/
@[simp] theorem step_core (s : State) (ts : List Turn) : step (s.withTurns (.core :: ts)) = coreTurn (s.withTurns ts) := rfl

/-- A step with an access of the host listed first. -/
@[simp] theorem step_host (s : State) (a : Access) (ts : List Turn) :
    step (s.withTurns (.host a :: ts)) = busAccess Config.pBase a (s.withTurns ts) := rfl

/-- A step with a reset listed first. -/
@[simp] theorem step_reset (s : State) (ts : List Turn) :
    step (s.withTurns (.reset :: ts)) = .next (s.withTurns ts).platformReset := rfl

end Sys2Proof.Machine
end

