-- ==== Sys2Proof/Laws/Bus.lean ====
section
/-! SUPPORT. The register block: the address map and the host notation's accesses. -/

namespace Sys2Proof.Machine

open Sys2Proof

/-- Every register word stands at its offset. -/
@[simp] theorem regAt_offset (r : Reg) : regAt r.offset = some r := by
  cases r with
  | key w => fin_cases w <;> rfl
  | din w => fin_cases w <;> rfl
  | dout w => fin_cases w <;> rfl
  | cmd => rfl
  | status => rfl

/-- A register word's offset is a multiple of 4. -/
theorem offset_mod_four (r : Reg) : r.offset % 4 = 0 := by
  cases r <;> simp only [Reg.offset] <;> omega

/-- A 4-byte access at a register word's address is admitted as that word. -/
theorem admission_at {base : Nat} {a : Access} {r : Reg} (hw : a.width = 4) (ha : a.addr = base + r.offset) :
    admission base a = .ok r := by
  have h4 := offset_mod_four r
  have hm : ((base + r.offset : Nat) : Int) - base = r.offset := by push_cast; ring
  have hz : ((r.offset : Int)) % 4 = 0 := by omega
  simp [admission, hw, ha, hz]

@[simp] theorem admission_write (base : Nat) (r : Reg) (v : Word) : admission base (.write 4 (base + r.offset) v) = .ok r :=
  admission_at rfl rfl

@[simp] theorem admission_read (base : Nat) (r : Reg) : admission base (.read 4 (base + r.offset)) = .ok r :=
  admission_at rfl rfl

/-- A step with a `wr` listed first does what R38 says. -/
theorem step_wr (s : State) (r : Reg) (v : Word) (ts : List Turn) :
    step (s.withTurns (wr Config.pBase r v :: ts)) =
      match hostWrite (s.withTurns ts) r v with
      | .ok t => .next t
      | .error e => .fault e := by
  cases h : hostWrite (s.withTurns ts) r v <;> simp only [wr, step_host, busAccess, admission_write, h]

/-- A step with a `rd` listed first does what R37 says. -/
theorem step_rd (s : State) (r : Reg) (ts : List Turn) :
    step (s.withTurns (rd Config.pBase r :: ts)) =
      match hostRead (s.withTurns ts) r with
      | .ok v => .next ((s.withTurns ts).receive v)
      | .error e => .fault e := by
  cases h : hostRead (s.withTurns ts) r <;> simp only [rd, step_host, busAccess, admission_read, h]

end Sys2Proof.Machine
end

