-- ==== Sys2Proof/Laws/Functions.lean ====
section
/-! SUPPORT. Small facts about the functions: G byte by byte, the reduced absolute value, and the ROM of a
configuration. -/

namespace Sys2Proof.Machine

open Sys2Proof

/-- G is the exclusive or of four lookups, table 0 on the most significant byte (R66). -/
theorem confusion_eq (r : Rom) (x : Word) :
    confusion r x = r.T 0 (x.extractLsb' 24 8) ^^^ r.T 1 (x.extractLsb' 16 8) ^^^ r.T 2 (x.extractLsb' 8 8) ^^^
      r.T 3 (x.extractLsb' 0 8) := rfl

/-- The absolute value comes first and the reduction second (R72). -/
theorem absMod32_eq (z : Int) : absMod32 z = BitVec.ofInt 32 |z| := by
  rw [absMod32, Int.abs_eq_natAbs, BitVec.ofInt_natCast]

/-- A magnitude below 2^32 is not reduced (R74). -/
theorem absMod32_toNat {z : Int} (h : |z| < 2 ^ 32) : ((absMod32 z).toNat : Int) = |z| := by
  rw [absMod32, BitVec.toNat_ofNat, Int.abs_eq_natAbs] at *
  omega

/-- The pair that K returns, from its two arguments (R72, R73). -/
theorem keySchedule_eq (r : Rom) (key : Key) (i : RoundIndex) :
    keySchedule r key i =
      { k0 := confusion r (absMod32 (gx0 key (r.RC (roundNumber i))))
        k1 := confusion r (absMod32 (gx1 key (r.RC (roundNumber i)))) } := rfl

/-- The ROM of a configuration holds `P_T` (R24, R31). -/
theorem ofConfig_T (t : TableNumber) (i : TableIndex) :
    Rom.ofConfig.T t i = Config.pT ⟨t.toNat, t.isLt⟩ ⟨i.toNat, i.isLt⟩ := by
  simp [Rom.T, Rom.ofConfig]

/-- The ROM of a configuration holds `P_RC` (R25, R31). -/
theorem ofConfig_RC (j : RoundNumber) : Rom.ofConfig.RC j = Config.pRC j := by
  have hj := j.property
  simp only [Rom.RC, Rom.ofConfig, Vector.getElem_ofFn]
  congr 1
  exact Subtype.ext (by simp only; omega)

end Sys2Proof.Machine
end

