-- ==== Sys2Proof/Laws/Run.lean ====
section
/-! SUPPORT. Running the machine: one step of `runSteps` at a time, and the steps that change no field but their
own, with the listed turns moved to the outside so that the next step is visible. -/

namespace Sys2Proof.Machine

open Sys2Proof

@[simp] theorem run_zero (s : State) : runSteps 0 s = .next s := rfl

/-- A run goes on after a step that answers a next state. -/
theorem run_succ {n : Nat} {s t : State} (h : step s = .next t) : runSteps (n + 1) s = runSteps n t := by
  simp only [runSteps, h]

/-- A run that answers a next state takes a first step that does. -/
theorem run_succ_inv {n : Nat} {s t : State} (h : runSteps (n + 1) s = .next t) :
    ∃ u, step s = .next u ∧ runSteps n u = .next t := by
  cases hs : step s with
  | next u => exact ⟨u, rfl, by simpa only [runSteps, hs] using h⟩
  | fault e => simp [runSteps, hs] at h
  | refused e => simp [runSteps, hs] at h

/-- `runSteps` is the host's run of the machine. -/
theorem core_run_eq (n : Nat) (s : State) : Host.Core.run core n s = runSteps n s := by
  induction n generalizing s with
  | zero => rfl
  | succ n ih =>
    have hs : core.step s = step s := rfl
    cases h : step s with
    | next t => rw [run_succ h, ← ih t]; simp only [Host.Core.run, hs, h]
    | fault e => simp only [Host.Core.run, runSteps, hs, h]; rfl
    | refused e => simp only [Host.Core.run, runSteps, hs, h]; rfl

/-- A run of `m + n` steps is a run of `m` steps and then one of `n`. -/
theorem run_add {m n : Nat} {s t : State} (h : runSteps m s = .next t) :
    runSteps (m + n) s = runSteps n t := by
  induction m generalizing s with
  | zero =>
    rw [run_zero] at h
    cases h
    rw [Nat.zero_add]
  | succ m ih =>
    obtain ⟨u, hu, hr⟩ := run_succ_inv h
    rw [Nat.add_right_comm, run_succ hu]
    exact ih hr

/-- The steps of a host with no command in flight. -/
theorem step_wr_key {s : State} (hb : s.busy = false) (w : Fin 4) (v : Word) (ts : List Turn) :
    step (s.withTurns (wr Config.pBase (.key w) v :: ts)) = .next ((s.writeKey w v).withTurns ts) := by
  rw [step_wr]; simp only [hostWrite, State.withTurns_busy, hb]; rfl

theorem step_wr_din {s : State} (hb : s.busy = false) (w : Fin 4) (v : Word) (ts : List Turn) :
    step (s.withTurns (wr Config.pBase (.din w) v :: ts)) = .next ((s.writeDin w v).withTurns ts) := by
  rw [step_wr]; simp only [hostWrite, State.withTurns_busy, hb]; rfl

theorem step_wr_cmd {s : State} (hb : s.busy = false) (v : Word) (ts : List Turn) :
    step (s.withTurns (wr Config.pBase .cmd v :: ts)) = .next ((s.issue v).withTurns ts) := by
  rw [step_wr]; simp only [hostWrite, State.withTurns_busy, hb]; rfl

theorem step_rd_dout {s : State} (hb : s.busy = false) (w : Fin 4) (ts : List Turn) :
    step (s.withTurns (rd Config.pBase (.dout w) :: ts)) = .next ((s.receive (getWord s.dout w)).withTurns ts) := by
  rw [step_rd]; simp only [hostRead, State.withTurns_busy, hb]; rfl

/-- The reads that answer in every state. -/
theorem step_rd_key (s : State) (w : Fin 4) (ts : List Turn) :
    step (s.withTurns (rd Config.pBase (.key w) :: ts)) = .next ((s.receive (getWord s.key w)).withTurns ts) := by
  rw [step_rd]; rfl

theorem step_rd_din (s : State) (w : Fin 4) (ts : List Turn) :
    step (s.withTurns (rd Config.pBase (.din w) :: ts)) = .next ((s.receive (getWord s.din w)).withTurns ts) := by
  rw [step_rd]; rfl

theorem step_rd_cmd (s : State) (ts : List Turn) :
    step (s.withTurns (rd Config.pBase .cmd :: ts)) = .next ((s.receive s.cmd).withTurns ts) := by
  rw [step_rd]; rfl

theorem step_rd_status (s : State) (ts : List Turn) :
    step (s.withTurns (rd Config.pBase .status :: ts)) = .next ((s.receive s.status).withTurns ts) := by
  rw [step_rd]; rfl

/-- The listed turns are no operand of a command. -/
@[simp] theorem resultOf_withTurns (i : Instr) (s : State) (ts : List Turn) : resultOf i (s.withTurns ts) = resultOf i s := by
  cases i <;> rfl

/-- The core's turn with a legal command in flight. -/
theorem step_core_legal {s : State} {i : Instr} (hb : s.busy = true) (hd : decode s.cmd = .ok i) (ts : List Turn) :
    step (s.withTurns (.core :: ts)) = .next ((s.commit (resultOf i s)).withTurns ts) := by
  rw [step_core]
  simp only [coreTurn, complete, State.withTurns_busy, State.withTurns_cmd, hb, hd, if_true, exec_eq, resultOf_withTurns]
  rfl

/-- The core's turn with an illegal command in flight. -/
theorem step_core_illegal {s : State} {e : Illegal} (hb : s.busy = true) (hd : decode s.cmd = .error e) (ts : List Turn) :
    step (s.withTurns (.core :: ts)) = .next (s.completeIllegal.withTurns ts) := by
  rw [step_core]
  simp only [coreTurn, complete, State.withTurns_busy, State.withTurns_cmd, hb, hd, if_true]
  rfl

end Sys2Proof.Machine
end

