-- ==== Sys2Proof/Laws/Step.lean ====
section
/-! SUPPORT. Everything a step can do, said once in terms of the named operations: each invariant is a case analysis of
`step_effect_cases`. -/

namespace Sys2Proof.Machine

open Sys2Proof

theorem nextTurn_nil {s : State} (h : s.turns = []) : s.nextTurn = .core := by
  simp [State.nextTurn, h]

theorem nextTurn_cons {s : State} {t : Turn} {ts : List Turn} (h : s.turns = t :: ts) : s.nextTurn = t := by
  simp [State.nextTurn, h]

/-- The register word at an offset stands there (R32). -/
theorem offset_of_regAt {off : Nat} {r : Reg} (h : regAt off = some r) : off = r.offset := by
  unfold regAt at h
  split at h <;> simp at h <;> subst h <;> rfl

/-- An admitted access is a 4-byte access at the address of its register word (R36). -/
theorem admission_ok_inv {base : Nat} {a : Access} {r : Reg} (h : admission base a = .ok r) :
    a.width = 4 ∧ a.addr = base + r.offset := by
  unfold admission at h
  split_ifs at h with h1 h2 h3
  split at h
  · next r' hr =>
    have hoff := offset_of_regAt hr
    cases h
    exact ⟨by simpa using h1, by omega⟩
  · cases h

/-- What the core's turn can do: idle, complete an illegal command, or commit a legal one's result. -/
theorem coreTurn_effect_cases {s t : State} (h : coreTurn s = .next t) :
    (s.busy = false ∧ t = s) ∨ (s.busy = true ∧ (∃ e, decode s.cmd = .error e) ∧ t = s.completeIllegal) ∨
      (s.busy = true ∧ ∃ i, decode s.cmd = .ok i ∧ t = s.commit (resultOf i s)) := by
  rcases coreTurn_next_cases h with h | ⟨hb, hc⟩
  · exact .inl h
  · rcases complete_next_cases hc with h | h
    · exact .inr (.inl ⟨hb, h⟩)
    · exact .inr (.inr ⟨hb, h⟩)

/-- The same with the turn already removed from the list. -/
theorem core_effect_cases {s t : State} {ts : List Turn} (ht : s.turns.tail = ts) (h : coreTurn (s.withTurns ts) = .next t) :
    (s.busy = false ∧ t = s.withTurns s.turns.tail) ∨
    (s.busy = true ∧ (∃ e, decode s.cmd = .error e) ∧ t = s.completeIllegal.withTurns s.turns.tail) ∨
    (s.busy = true ∧ ∃ i, decode s.cmd = .ok i ∧
      t = (s.commit (resultOf i s)).withTurns s.turns.tail) := by
  subst ht
  rcases coreTurn_effect_cases h with h | ⟨hb, he, rfl⟩ | ⟨hb, i, hi, rfl⟩
  · exact .inl h
  · exact .inr (.inl ⟨hb, he, rfl⟩)
  · exact .inr (.inr ⟨hb, i, hi, by cases i <;> rfl⟩)

/-- What a step can do. Each case names the turn taken and the state it leaves, with the turn removed. -/
theorem step_effect_cases {s t : State} (h : step s = .next t) :
    (s.nextTurn = .core ∧ s.busy = false ∧ t = s.withTurns s.turns.tail) ∨
    (s.nextTurn = .core ∧ s.busy = true ∧ (∃ e, decode s.cmd = .error e) ∧ t = s.completeIllegal.withTurns s.turns.tail) ∨
    (s.nextTurn = .core ∧ s.busy = true ∧ ∃ i, decode s.cmd = .ok i ∧
      t = (s.commit (resultOf i s)).withTurns s.turns.tail) ∨
    (s.nextTurn = .reset ∧ t = s.platformReset.withTurns s.turns.tail) ∨
    (∃ r v, s.nextTurn = rd Config.pBase r ∧ hostRead s r = .ok v ∧ t = (s.receive v).withTurns s.turns.tail) ∨
    (∃ w v, s.nextTurn = wr Config.pBase (.key w) v ∧ s.busy = false ∧ t = (s.writeKey w v).withTurns s.turns.tail) ∨
    (∃ w v, s.nextTurn = wr Config.pBase (.din w) v ∧ s.busy = false ∧ t = (s.writeDin w v).withTurns s.turns.tail) ∨
    (∃ v, s.nextTurn = wr Config.pBase .cmd v ∧ s.busy = false ∧ t = (s.issue v).withTurns s.turns.tail) ∨
    (∃ r v, s.nextTurn = wr Config.pBase r v ∧ ((∃ w, r = .dout w) ∨ r = .status) ∧ t = s.withTurns s.turns.tail) := by
  rcases step_next_cases h with ⟨hn, hc⟩ | ⟨ts, hn, hc⟩ | ⟨a, ts, hn, hc⟩ | ⟨ts, hn, rfl⟩
  · rcases core_effect_cases (ts := []) (by rw [hn]; rfl) (by rw [← hn]; exact hc) with h | h | h
    · exact .inl ⟨nextTurn_nil hn, h⟩
    · exact .inr (.inl ⟨nextTurn_nil hn, h⟩)
    · exact .inr (.inr (.inl ⟨nextTurn_nil hn, h⟩))
  · rcases core_effect_cases (ts := ts) (by rw [hn]; rfl) hc with h | h | h
    · exact .inl ⟨nextTurn_cons hn, h⟩
    · exact .inr (.inl ⟨nextTurn_cons hn, h⟩)
    · exact .inr (.inr (.inl ⟨nextTurn_cons hn, h⟩))
  · have ht : s.turns.tail = ts := by rw [hn]; rfl
    have hN := nextTurn_cons hn
    rw [ht]
    rcases busAccess_next_cases hc with ⟨n, ad, r, v, rfl, hr, hv, rfl⟩ | ⟨n, ad, v, r, rfl, hr, hw⟩
    · obtain ⟨rfl, rfl⟩ := admission_ok_inv hr
      exact .inr (.inr (.inr (.inr (.inl ⟨r, v, hN, by cases r <;> exact hv, rfl⟩))))
    · obtain ⟨rfl, rfl⟩ := admission_ok_inv hr
      rcases hostWrite_ok_cases hw with ⟨w, rfl, hb, rfl⟩ | ⟨w, rfl, hb, rfl⟩ | ⟨rfl, hb, rfl⟩ | ⟨rfl, hh⟩
      · exact .inr (.inr (.inr (.inr (.inr (.inl ⟨w, v, hN, hb, rfl⟩)))))
      · exact .inr (.inr (.inr (.inr (.inr (.inr (.inl ⟨w, v, hN, hb, rfl⟩))))))
      · exact .inr (.inr (.inr (.inr (.inr (.inr (.inr (.inl ⟨v, hN, hb, rfl⟩)))))))
      · exact .inr (.inr (.inr (.inr (.inr (.inr (.inr (.inr ⟨r, v, hN, hh, rfl⟩)))))))
  · exact .inr (.inr (.inr (.inl ⟨nextTurn_cons hn, by rw [hn]; rfl⟩)))

end Sys2Proof.Machine
end

