-- ==== Sys2Proof/Laws/Model.lean ====
section
/-! SUPPORT. The spec's model beside the machine: where it faults on an unwritten word, and that it does what the machine
does everywhere else. -/

namespace Sys2Proof.Machine

open Sys2Proof

/-- Whether a register word's flag forbids the read does not depend on the listed turns. -/
@[simp] theorem unwritten_withTurns (s : State) (ts : List Turn) (r : Reg) :
    (s.withTurns ts).unwritten r = s.unwritten r := by
  cases r <;> rfl

@[simp] theorem operandsWritten_withTurns (s : State) (ts : List Turn) (i : Instr) :
    (s.withTurns ts).operandsWritten i = s.operandsWritten i := by
  cases i <;> rfl

@[simp] theorem nextTurn_withTurns_cons (s : State) (t : Turn) (ts : List Turn) : (s.withTurns (t :: ts)).nextTurn = t := rfl

/-- When a read faults in the spec's model (R99): its word is unwritten, and the machine answers the read. -/
theorem readFault_some_iff {base : Nat} {a : Access} {s : State} {e : ModelFault} :
    readFault base a s = some e ↔
      e = .unwrittenRead ∧ ∃ n ad r v, a = .read n ad ∧ admission base a = .ok r ∧ hostRead s r = .ok v ∧ s.unwritten r = true := by
  cases a with
  | write n ad v => cases h : admission base (.write n ad v) <;> simp [readFault, h]
  | read n ad =>
    cases h : admission base (.read n ad) with
    | error x => simp [readFault, h]
    | ok r => cases hv : hostRead s r <;> cases hu : s.unwritten r <;> simp [readFault, h, hv, hu, @eq_comm _ _ e]

/-- When a completion faults in the spec's model (R100). -/
theorem completionFault_some_iff {s : State} {e : ModelFault} :
    completionFault s = some e ↔
      e = .unwrittenOperand ∧ s.busy = true ∧ ∃ i, decode s.cmd = .ok i ∧ s.operandsWritten i = false := by
  cases hb : s.busy with
  | false => simp [completionFault, hb]
  | true =>
    cases hd : decode s.cmd with
    | error x => simp [completionFault, hb, hd]
    | ok i => cases hw : s.operandsWritten i <;> simp [completionFault, hb, hd, hw, @eq_comm _ _ e]

/-- The core's turn completes a legal command in flight, whatever its operand words. -/
theorem coreTurn_legal {s : State} {i : Instr} (hb : s.busy = true) (hd : decode s.cmd = .ok i) :
    coreTurn s = .next (s.commit (resultOf i s)) := by
  simp only [coreTurn, complete, hb, hd, if_true, exec_eq]

/-- A host read that the register answers. -/
theorem busAccess_read {base n ad : Nat} {s : State} {r : Reg} {v : Word} (ha : admission base (.read n ad) = .ok r)
    (hv : hostRead s r = .ok v) : busAccess base (.read n ad) s = .next (s.receive v) := by
  simp only [busAccess, ha, hv]

/-- A read does not look at the listed turns. -/
@[simp] theorem hostRead_withTurns (s : State) (ts : List Turn) (r : Reg) : hostRead (s.withTurns ts) r = hostRead s r := by
  cases r <;> rfl

/-- Where the spec's model faults on an unwritten word, the machine answers a next state (R99, R100). -/
theorem unwrittenFault_some {s : State} {e : ModelFault} (h : unwrittenFault Config.pBase s = some e) :
    (e = .unwrittenRead ∨ e = .unwrittenOperand) ∧ ∃ t, step s = .next t := by
  cases hn : s.turns with
  | nil =>
    simp only [unwrittenFault, nextTurn_nil hn] at h
    obtain ⟨rfl, hb, i, hd, -⟩ := completionFault_some_iff.1 h
    exact ⟨.inr rfl, _, by simp only [step, takeTurn, hn]; exact coreTurn_legal hb hd⟩
  | cons u ts =>
    cases u with
    | host a =>
      simp only [unwrittenFault, nextTurn_cons hn] at h
      obtain ⟨rfl, n, ad, r, v, rfl, ha, hv, -⟩ := readFault_some_iff.1 h
      exact ⟨.inl rfl, _, by simp only [step, takeTurn, hn]; exact busAccess_read ha (by rw [hostRead_withTurns]; exact hv)⟩
    | core =>
      simp only [unwrittenFault, nextTurn_cons hn] at h
      obtain ⟨rfl, hb, i, hd, -⟩ := completionFault_some_iff.1 h
      exact ⟨.inr rfl, _, by simp only [step, takeTurn, hn]; exact coreTurn_legal hb hd⟩
    | reset => simp [unwrittenFault, nextTurn_cons hn] at h

/-- With no unwritten word met, a step of the spec's model is a step of the machine. -/
theorem modelStep_of_none {s : State} (h : unwrittenFault Config.pBase s = none) :
    modelStep s = match step s with
      | .next t => .next t
      | .fault e => .fault e.reason
      | .refused r => .refused r := by
  cases hs : takeTurn Config.pBase s <;> simp only [modelStep, modelTurn, h, step, hs]

/-- With an unwritten word met, the spec's model faults. -/
theorem modelStep_of_some {s : State} {e : ModelFault} (h : unwrittenFault Config.pBase s = some e) : modelStep s = .fault e := by
  simp only [modelStep, modelTurn, h]

/-- When the spec's model answers a next state. -/
theorem modelStep_next_iff {s t : State} :
    modelStep s = .next t ↔ unwrittenFault Config.pBase s = none ∧ step s = .next t := by
  cases h : unwrittenFault Config.pBase s with
  | some e => simp [modelStep_of_some h]
  | none => cases hs : step s <;> simp [modelStep_of_none h, hs]

/-- A run of the spec's model goes on after a step that it answers. -/
theorem advanceN_succ {n : Nat} {s t : State} (h : modelStep s = .next t) :
    ModelRun.advanceN (n + 1) { state := s, record := .empty } = ModelRun.advanceN n { state := t, record := .empty } := by
  simp only [ModelRun.advanceN, ModelRun.advance, h]

/-- No step is a run of both. -/
theorem runsTo_zero (s : State) : s.runsTo 0 s := ⟨rfl, rfl⟩

/-- One step of the spec's model, followed by a run, is a run of both. -/
theorem runsTo_succ {n : Nat} {s t u : State} (h : modelStep s = .next t) (hr : t.runsTo n u) : s.runsTo (n + 1) u :=
  ⟨by simp only [runSteps, (modelStep_next_iff.1 h).2]; exact hr.1, by rw [advanceN_succ h]; exact hr.2⟩

/-- A run of `m` steps and then one of `n` is a run of `m + n`. -/
theorem runsTo_add {m n : Nat} {s t u : State} (h : s.runsTo m t) (hr : t.runsTo n u) : s.runsTo (m + n) u := by
  refine ⟨(run_add h.1).trans hr.1, ?_⟩
  have split : ∀ (m : Nat) (r : ModelRun), ModelRun.advanceN (m + n) r = ModelRun.advanceN n (ModelRun.advanceN m r) := by
    intro m
    induction m with
    | zero => intro r; rw [Nat.zero_add]; rfl
    | succ m ih => intro r; rw [Nat.add_right_comm]; exact ih r.advance
  rw [split, h.2, hr.2]

/-- A `wr` listed first, in the spec's model: what R38 says. -/
theorem modelStep_wr (s : State) (r : Reg) (v : Word) (ts : List Turn) :
    modelStep (s.withTurns (wr Config.pBase r v :: ts)) =
      match hostWrite (s.withTurns ts) r v with
      | .ok t => .next t
      | .error e => .fault e.reason := by
  have hn : unwrittenFault Config.pBase (s.withTurns (wr Config.pBase r v :: ts)) = none := by
    simp only [unwrittenFault, nextTurn_withTurns_cons, wr, readFault, admission_write]
  rw [modelStep_of_none hn, step_wr]
  cases hostWrite (s.withTurns ts) r v <;> rfl

/-- A `rd` listed first, in the spec's model: what R37 says. -/
theorem modelStep_rd (s : State) (r : Reg) (ts : List Turn) :
    modelStep (s.withTurns (rd Config.pBase r :: ts)) =
      match hostRead s r with
      | .ok v => if s.unwritten r = true then .fault .unwrittenRead else .next ((s.receive v).withTurns ts)
      | .error e => .fault e.reason := by
  cases hv : hostRead s r with
  | error e =>
    have hn : unwrittenFault Config.pBase (s.withTurns (rd Config.pBase r :: ts)) = none := by
      simp only [unwrittenFault, nextTurn_withTurns_cons, rd, readFault, admission_read, hostRead_withTurns, hv]
    rw [modelStep_of_none hn, step_rd, hostRead_withTurns, hv]
  | ok v =>
    cases hu : s.unwritten r with
    | true =>
      exact modelStep_of_some (readFault_some_iff.2
        ⟨rfl, _, _, r, v, rfl, admission_read .., by rw [hostRead_withTurns]; exact hv, by rw [unwritten_withTurns]; exact hu⟩)
    | false =>
      have hn : unwrittenFault Config.pBase (s.withTurns (rd Config.pBase r :: ts)) = none := by
        simp [unwrittenFault, rd, readFault, hv, hu]
      rw [modelStep_of_none hn, step_rd, hostRead_withTurns, hv]
      rfl

/-- The core's turn with a legal command in flight, in the spec's model: what R119 says. -/
theorem modelStep_core_legal {s : State} {i : Instr} (hb : s.busy = true) (hd : decode s.cmd = .ok i) (ts : List Turn) :
    modelStep (s.withTurns (.core :: ts)) =
      if s.operandsWritten i = true then .next ((s.commit (resultOf i s)).withTurns ts) else .fault .unwrittenOperand := by
  cases hw : s.operandsWritten i with
  | false =>
    exact modelStep_of_some (completionFault_some_iff.2 ⟨rfl, hb, i, hd, by rw [operandsWritten_withTurns]; exact hw⟩)
  | true =>
    have hn : unwrittenFault Config.pBase (s.withTurns (.core :: ts)) = none := by
      simp [unwrittenFault, completionFault, hb, hd, hw]
    rw [modelStep_of_none hn, step_core_legal hb hd]
    rfl

end Sys2Proof.Machine
end

