-- ==== Sys2Proof/Laws/PerInstr.lean ====
section
/-! SUPPORT. A statement about every command as a word, one lemma per constructor: its encoding's fields are well formed
(spec/30_encoding.md R49, R56), it selects its own row of the opcode map (R54), and it selects no other row. -/

namespace Sys2Proof.Laws.SelectsRow

open Sys2Proof

/-- The opcode of a command's row (R54). -/
def opcode : Instr → BitVec 8
  | .tlu _ => 0x01
  | .g => 0x02
  | .ks _ => 0x03
  | .f => 0x04
  | .dec => 0x05

/-- The encoding of `i` has the opcode of `i`'s row, passes the checks of R56, and selects the row of `i` (R54). -/
def Statement (i : Instr) : Prop :=
  (fieldsOf (encode i)).opc = opcode i ∧ (fieldsOf (encode i)).wellFormed = true ∧ selectsRow (encode i) i = true

theorem tlu (t : TableNumber) : Statement (.tlu t) := by
  revert t; unfold Statement; decide

theorem g : Statement .g := by
  unfold Statement; decide

theorem ks (i : RoundIndex) : Statement (.ks i) := by
  revert i; unfold Statement; decide

theorem f : Statement .f := by
  unfold Statement; decide

theorem dec : Statement .dec := by
  unfold Statement; decide

end Sys2Proof.Laws.SelectsRow
end

