-- ==== Sys2Proof/Tests/Slice0.lean ====
section
/-! SUPPORT. Tests of the model, each on one step or one function, with expected results from spec/95_test_vectors.md, and
for every obligation with hypotheses a named witness that meets them. -/

namespace Sys2Proof.Tests

open Sys2Proof Sys2Proof.Machine

/-! ### The test configurations of 95_test_vectors.md, section 2 -/

/-- One table of 256 Words. -/
def tableOf (f : Nat → Nat) : Vector Word 256 :=
  ⟨((List.range 256).map fun i => BitVec.ofNat 32 (f i)).toArray, by simp⟩

/-- A ROM from the values of its entries. -/
def romOf (t : Nat → Nat → Nat) (rc : Nat → Nat) : Rom :=
  { tables := #v[tableOf (t 0), tableOf (t 1), tableOf (t 2), tableOf (t 3)]
    constants := ⟨((List.range 16).map fun p => BitVec.ofNat 32 (rc (p + 1))).toArray, by simp⟩ }

/-- RCT: `rotl32(0x9E3779B9, j - 1)`. -/
def rct (j : Nat) : Nat := ((0x9E3779B9#32).rotateLeft (j - 1)).toNat

/-- TZ with RCT. -/
def romTZ : Rom := romOf (fun _ _ => 0) rct

/-- TI with RCT. -/
def romTI : Rom := romOf (fun t i => i * 2 ^ (24 - 8 * t)) rct

/-- TX with RCT. -/
def romTX : Rom := romOf (fun t i => 0x9E3779B9 * (256 * t + i + 1)) rct

/-- A command in flight with every operand word written and DOUT unwritten. -/
def ready (rom : Rom) (key : Key) (din : Block) (cmd : Word) : State :=
  { State.reset with rom := rom, key := key, din := din, cmd := cmd, busy := true, wrKey := allWritten, wrDin := allWritten }

/-- The next state of an outcome passes a check. -/
def nextIs (o : Host.Outcome State Fault Refusal) (p : State → Bool) : Bool :=
  match o with
  | .next t => p t
  | _ => false

/-- The outcome is this fault. -/
def faultIs (o : Host.Outcome State Fault Refusal) (e : Fault) : Bool :=
  match o with
  | .fault e' => e == e'
  | _ => false

/-- The next turn faults in the spec's model for this reason. -/
def modelFaultIs (base : Nat) (s : State) (e : ModelFault) : Bool :=
  match modelTurn base s with
  | .fault e' => e == e'
  | _ => false

/-- The outcome is this refusal. -/
def refusedIs (o : Host.Outcome State Fault Refusal) (e : Refusal) : Bool :=
  match o with
  | .refused e' => e == e'
  | _ => false

/-! ### WellFormed: an ill-formed term for each check (R56, R58) -/

theorem test_wf_opc_refused : (CmdFields.wellFormed ⟨0, 0, 0, 0, 0x06⟩) = false ∧ (CmdFields.opcAssigned ⟨0, 0, 0, 0, 0x00⟩) = false := by decide

theorem test_wf_reserved_refused :
    (CmdFields.wellFormed ⟨0, 0, 1, 0, 0x01⟩) = false ∧ (CmdFields.wellFormed ⟨1, 0, 0, 0, 0x01⟩) = false := by decide

theorem test_wf_tsel_refused : (CmdFields.wellFormed ⟨0, 0, 0, 1, 0x05⟩) = false ∧ (CmdFields.wellFormed ⟨0, 0, 0, 1, 0x01⟩) = true := by decide

theorem test_wf_ridx_refused : (CmdFields.wellFormed ⟨0, 1, 0, 0, 0x02⟩) = false ∧ (CmdFields.wellFormed ⟨0, 1, 0, 0, 0x03⟩) = true := by decide

theorem test_wf_asm_refused :
    (AsmLine.wellFormed ⟨.tlu, [4]⟩ || AsmLine.wellFormed ⟨.tlu, []⟩ || AsmLine.wellFormed ⟨.ks, [16]⟩ ||
      AsmLine.wellFormed ⟨.g, [0]⟩ || AsmLine.wellFormed ⟨.f, [0]⟩ || AsmLine.wellFormed ⟨.dec, [0]⟩ ||
      AsmLine.wellFormed ⟨.rawCmd, [2 ^ 32]⟩) = false := by decide

/-! ### Decode and encode: words written out from R55 (V-E-1 to V-E-16) -/

theorem test_decode_legal :
    decode 0b00000000000000000000000100000001#32 = .ok (.tlu 1) ∧ decode 0b00000000000000000000001000000001#32 = .ok (.tlu 2) ∧
    decode 0b00000000000000000000000000000010#32 = .ok .g ∧ decode 0b00000000000001010000000000000011#32 = .ok (.ks 5) ∧
    decode 0b00000000000000000000000000000100#32 = .ok .f ∧ decode 0b00000000000000000000000000000101#32 = .ok .dec := by decide

theorem test_decode_illegal :
    decode 0x00000000#32 = .error .opcZero ∧ decode 0x00000006#32 = .error .opcUnassigned ∧
    decode 0x000000FF#32 = .error .opcUnassigned ∧ decode 0x00000105#32 = .error .tselUnused ∧
    decode 0x00000103#32 = .error .tselUnused ∧ decode 0x00010002#32 = .error .ridxUnused ∧
    decode 0x00000401#32 = .error .reservedBit ∧ decode 0x00100001#32 = .error .reservedBit ∧
    decode 0x00F00003#32 = .error .reservedBit ∧ decode 0x80000001#32 = .error .reservedBit := by decide

theorem test_encode_words :
    encode (.tlu 3) = 0x00000301#32 ∧ encode .g = 0x00000002#32 ∧ encode (.ks 15) = 0x000F0003#32 ∧
    encode .f = 0x00000004#32 ∧ encode .dec = 0x00000005#32 := by decide

theorem test_table_words_decode :
    decodeTableWord 32 0x00000301 = some (.tlu 3) ∧ decodeTableWord 32 0x00000002 = some .g ∧
    decodeTableWord 32 0x000F0003 = some (.ks 15) ∧ decodeTableWord 32 0x00000004 = some .f ∧
    decodeTableWord 32 0x00000005 = some .dec ∧ decodeTableWord 32 0 = none := by decide

theorem test_fetch_word_runs_from_reset :
    (nextIs (step (State.reset.withFetchWord 32 0x00000001)) fun t => !t.err && !t.busy) = true ∧
    (nextIs (step (State.reset.withFetchWord 32 0x00000002)) fun t => !t.err && !t.busy) = true ∧
    (nextIs (step (State.reset.withFetchWord 32 0x00000003)) fun t => !t.err && !t.busy) = true ∧
    (nextIs (step (State.reset.withFetchWord 32 0x00000004)) fun t => !t.err && !t.busy) = true ∧
    (nextIs (step (State.reset.withFetchWord 32 0x00000005)) fun t => !t.err && !t.busy) = true := by decide

/-! ### The commands (sections 3 to 7) -/

/-- V-TLU-1. -/
theorem test_tlu_table_two : (nextIs (exec (.tlu 2) (ready romTX 0 0x7F#128 0x201#32)) fun t => t.dout == 0x8AB04E80#128) = true := by decide

/-- V-TLU-4: DIN3[31:8] is ignored. -/
theorem test_tlu_ignores_high_bits : (nextIs (exec (.tlu 0) (ready romTX 0 0xFFFFFF05#128 0x1#32)) fun t => t.dout == 0xB54CDA56#128) = true := by decide

/-- V-G-3: a different index per table. -/
theorem test_g_byte_order : (nextIs (exec .g (ready romTX 0 0x01020304#128 0x2#32)) fun t => t.dout == 0x741D0620#128) = true := by decide

/-- V-G-6, with DIN[127:32] ignored. -/
theorem test_g_ignores_high_words :
    (nextIs (exec .g (ready romTX 0 0xFFFFFFFFFFFFFFFFFFFFFFFFDEADBEEF#128 0x2#32)) fun t => t.dout == 0x934577EE#128) = true := by decide

/-- V-KS-6: gx1 < 0, the case of R75. -/
theorem test_ks_magnitude :
    (nextIs (exec (.ks 1) (ready romTX 0xFFFFFFFF#128 0 0x10003#32)) fun t => t.dout == 0x0EFCA5A2EC5B80A60000000000000000#128) = true := by decide

/-- V-KS-3: gx0 at least 2^32 is reduced. -/
theorem test_ks_reduces :
    (nextIs (exec (.ks 0) (ready romTX 0xFFFFFFFFFFFFFFFFFFFFFFFFFFFFFFFF#128 0 0x3#32)) fun t =>
      t.dout == 0xD798028AD8302FDF0000000000000000#128) = true := by decide

/-- V-F-4. -/
theorem test_f_general :
    (nextIs (exec .f (ready romTX 0 0x123456789ABCDEF00011223344556677#128 0x4#32)) fun t => t.dout == 0xCD3B783D62DFC2A8#128) = true := by decide

/-- V-F-6: leading zeros of each half are kept. -/
theorem test_f_keeps_leading_zeros :
    (nextIs (exec .f (ready romTI 0 0x00000000000000000000000100000000#128 0x4#32)) fun t => t.dout == 0x0000000500000003#128) = true := by decide

/-- V-DEC-8: the golden input under TX. -/
theorem test_dec_golden_input :
    (nextIs (exec .dec (ready romTX 0x1B93#128 0xF54A875BB52B27026EA1A27B760A35C0#128 0x5#32)) fun t =>
      t.dout == 0x42718856DB84B6EEE882D657F3BD7B72#128) = true := by decide

/-- V-DEC-11. -/
theorem test_dec_general :
    (nextIs (exec .dec (ready romTX 0x000102030405060708090A0B0C0D0E0F#128 0x00112233445566778899AABBCCDDEEFF#128 0x5#32)) fun t =>
      t.dout == 0xE8B72913ED9B175144C192C7840CF7C2#128) = true := by decide

/-! ### The register interface (section 8.2), with the block at an example base -/

/-- V-M-1, V-M-2, V-M-3, V-M-4. -/
theorem test_reads_at_reset :
    (nextIs (busAccess 0x40000000 (.read 4 0x40000034) State.reset) fun t => t.received == [0x00000000#32]) = true ∧
    (nextIs (busAccess 0x40000000 (.read 4 0x40000030) State.reset) fun t => t.received == [0x00000000#32]) = true ∧
    modelFaultIs 0x40000000 (State.reset.withTurns [.host (.read 4 0x40000000)]) .unwrittenRead = true ∧
    modelFaultIs 0x40000000 (State.reset.withTurns [.host (.read 4 0x4000002C)]) .unwrittenRead = true := by decide

/-- R99: there the hardware returns some value, and the machine goes on. -/
theorem test_machine_reads_unwritten :
    (nextIs (busAccess 0x40000000 (.read 4 0x40000000) State.reset) fun t => t.received.length == 1) = true := by decide

/-- V-M-5 and V-M-6, one word: KEY2 is bits 63:32. -/
theorem test_key_word_order :
    (nextIs (busAccess 0x40000000 (.write 4 0x40000008 0x8899AABB#32) State.reset) fun t =>
      t.key == 0x00000000000000008899AABB00000000#128 && t.wrKey == #v[false, false, true, false]) = true := by decide

/-- V-M-7, V-M-8: writes to STATUS and DOUT3 are ignored. -/
theorem test_read_only_writes_ignored :
    (nextIs (busAccess 0x40000000 (.write 4 0x40000034 0xFFFFFFFF#32) State.reset) fun t => t.status == 0#32) = true ∧
    (nextIs (busAccess 0x40000000 (.write 4 0x4000002C 0x12345678#32) State.reset) fun t => !t.wrDout[3]) = true := by decide

/-- V-M-9. -/
theorem test_issue :
    (nextIs (busAccess 0x40000000 (.write 4 0x40000030 0x2#32) State.reset) fun t => t.cmd == 0x2#32 && t.status == 0x1#32) = true := by decide

/-- V-M-11, V-M-12, V-M-13, and the address just below the block. -/
theorem test_not_admitted :
    refusedIs (busAccess 0x40000000 (.read 1 0x40000034) State.reset) .accessWidth = true ∧
    refusedIs (busAccess 0x40000000 (.read 4 0x40000002) State.reset) .accessMisaligned = true ∧
    refusedIs (busAccess 0x40000000 (.read 4 0x40000038) State.reset) .accessNoRegister = true ∧
    refusedIs (busAccess 0x40000000 (.write 4 0x3FFFFFFC 0) State.reset) .accessNoRegister = true := by decide

/-- R32 at the ends of each register. -/
theorem test_address_map_boundaries :
    regAt 0x0C = some (.key 3) ∧ regAt 0x10 = some (.din 0) ∧ regAt 0x1C = some (.din 3) ∧ regAt 0x20 = some (.dout 0) ∧
    regAt 0x2C = some (.dout 3) ∧ regAt 0x30 = some .cmd ∧ regAt 0x34 = some .status ∧ regAt 0x38 = none ∧ regAt 0x3C = none := by decide

/-! ### Completions and faults (section 8.3) -/

/-- V-X-1, V-X-7: an illegal command reads no operand. -/
theorem test_illegal_completion :
    (nextIs (complete (State.reset.issue 0x00000000#32)) fun t => t.status == 0x2#32 && !t.wrDout[3]) = true ∧
    (nextIs (complete (State.reset.issue 0x00000007#32)) fun t => t.status == 0x2#32) = true := by decide

/-- V-X-3: the old ERR is visible while BUSY = 1. -/
theorem test_err_visible_while_busy : (State.reset.completeIllegal.issue 0x00000201#32).status = 0x00000003#32 := by decide

/-- V-X-5, V-X-6: F needs DIN0 to DIN3, G needs DIN3 only. -/
theorem test_unwritten_operand :
    modelFaultIs 0 ((State.reset.writeDin 3 0x5#32).issue 0x4#32) .unwrittenOperand = true ∧
    modelFaultIs 0 ((State.reset.writeDin 3 0x5#32).issue 0x2#32) .unwrittenOperand = false ∧
    (nextIs (complete ((State.reset.writeDin 3 0x5#32).issue 0x2#32)) fun t => t.status == 0x0#32) = true := by decide

/-- V-X-8 to V-X-11. -/
theorem test_hazards :
    faultIs (busAccess 0 (.write 4 0x30 0x2#32) ((State.reset.writeDin 3 0x5#32).issue 0x2#32)) .hazardCmdWrite = true ∧
    faultIs (busAccess 0 (.write 4 0x1C 0x2#32) ((State.reset.writeDin 3 0x5#32).issue 0x2#32)) .hazardOperandWrite = true ∧
    faultIs (busAccess 0 (.read 4 0x2C) ((State.reset.writeDin 3 0x5#32).issue 0x2#32)) .hazardDoutRead = true ∧
    modelFaultIs 0 (((State.reset.writeDin 3 0x5#32).issue 0x2#32).withTurns [.host (.read 4 0x00)]) .unwrittenRead = true ∧
    modelFaultIs 0 (((State.reset.writeDin 3 0x5#32).issue 0x2#32).withTurns [.host (.read 4 0x2C)]) .hazardDoutRead = true := by decide

/-- V-X-12: reset drops the command in flight. -/
theorem test_reset_drops_command :
    ((ready romTI 1 2 0x5#32).platformReset.busy || (ready romTI 1 2 0x5#32).platformReset.wrKey[0]) = false := by decide

/-- Section 7, V-DEC-1: the swapped round order gives another value. -/
theorem test_round_order : finalRound romTI 0 1 (swapRound romTI 0 0 0) = 0xE70CA06344B315973C6EF3729E3779B9#128 := by decide

/-- R103, S7: 2^128 - 1 succeeds and 2^128 fails. -/
theorem test_width_boundary :
    numberToBlock (2 ^ 128 - 1) = .ok 0xFFFFFFFFFFFFFFFFFFFFFFFFFFFFFFFF#128 ∧ numberToBlock (2 ^ 128) = .error .outOfRange := by decide

/-- R103: a table of 255 entries is refused. -/
theorem test_malformed_table :
    Rom.ofLists [List.replicate 256 0, List.replicate 255 0, List.replicate 256 0, List.replicate 256 0] (List.replicate 16 0) =
      .error .malformedTable := by
  unfold Rom.ofLists
  exact dif_neg fun h => absurd (List.length_replicate.symm.trans h.2.1) (by decide)

/-! ### Witnesses: states and operands that meet the hypotheses of each obligation -/

theorem witness_decodeThenEncode : decode 0x00000301#32 = .ok (.tlu 3) := by decide

theorem witness_writeThenReadReturnsValue :
    State.reset.busy = false ∧ (Reg.cmd = .cmd ∨ ∃ w, Reg.cmd = .key w ∨ Reg.cmd = .din w) ∧
      (Reg.key 3 = .cmd ∨ ∃ w, Reg.key 3 = .key w ∨ Reg.key 3 = .din w) ∧
      (Reg.din 0 = .cmd ∨ ∃ w, Reg.din 0 = .key w ∨ Reg.din 0 = .din w) :=
  ⟨rfl, .inl rfl, .inr ⟨3, .inl rfl⟩, .inr ⟨0, .inr rfl⟩⟩

theorem witness_fourWordWritesMakeRegister : State.reset.busy = false := rfl

theorem witness_operandWritesCommute :
    State.reset.busy = false ∧ Reg.key 0 ≠ Reg.din 0 ∧ (∃ w, Reg.key 0 = .key w ∨ Reg.key 0 = .din w) ∧
      (∃ w, Reg.din 0 = .key w ∨ Reg.din 0 = .din w) :=
  ⟨rfl, by decide, ⟨0, .inl rfl⟩, ⟨0, .inr rfl⟩⟩

theorem witness_hostAccessClauses :
    State.reset.busy = false ∧ (ready romTI 1 2 0x5#32).busy = true ∧ State.reset.wrKey[0] = false ∧
      (ready romTI 1 2 0x5#32).wrKey[3] = true ∧ (ready romTI 1 2 0x5#32).wrDin[0] = true ∧ State.reset.wrDout[3] = false ∧
      ((ready romTI 1 2 0x5#32).commit 7).wrDout[3] = true := by decide

/-- DIN3 written, every DIN word written, every KEY word written. -/
theorem witness_commandsComplete :
    (ready romTI 1 2 0x5#32).wrDin[3] = true ∧ (∀ w : Fin 4, (ready romTI 1 2 0x5#32).wrDin[w] = true) ∧
      (∀ w : Fin 4, (ready romTI 1 2 0x5#32).wrKey[w] = true) := by decide

/-- Only DIN3 written: TLU and G complete, and KS, F and DEC fault. -/
theorem witness_unwrittenOperandClauses :
    (State.reset.writeDin 3 5).wrDin[3] = true ∧ (State.reset.writeDin 3 5).wrDin[0] = false ∧
      (State.reset.writeDin 3 5).wrKey[3] = false := by decide

theorem witness_commandFrame (i : Instr) : ∃ t, exec i (ready romTI 1 2 0x5#32) = .next t := by
  exact ⟨_, exec_eq ..⟩

/-- Two states that agree on DIN3 and on no other operand word, and G completes in both. -/
theorem witness_resultDependsOnlyOnOperands :
    (ready romTI 1 2 0x2#32).rom = (ready romTI 3 0xF00000002#128 0x2#32).rom ∧
    (∀ w : Fin 4, OperandWord.key w ∈ operandWords .g →
      (ready romTI 1 2 0x2#32).key.extractLsb' (96 - 32 * w.val) 32 = (ready romTI 3 0xF00000002#128 0x2#32).key.extractLsb' (96 - 32 * w.val) 32) ∧
    (∀ w : Fin 4, OperandWord.din w ∈ operandWords .g →
      (ready romTI 1 2 0x2#32).din.extractLsb' (96 - 32 * w.val) 32 = (ready romTI 3 0xF00000002#128 0x2#32).din.extractLsb' (96 - 32 * w.val) 32) ∧
    (∃ s' t', exec .g (ready romTI 1 2 0x2#32) = .next s' ∧ exec .g (ready romTI 3 0xF00000002#128 0x2#32) = .next t') :=
  ⟨rfl, by decide, by decide, _, _, rfl, rfl⟩

theorem witness_keyScheduleIsStateless :
    ∃ s1 s2 s3, exec (.ks 0) (ready romTI 1 2 0x3#32) = .next s1 ∧ execAll [.ks 5, .g] s1 = .next s2 ∧ exec (.ks 0) s2 = .next s3 :=
  ⟨_, _, _, rfl, rfl, rfl⟩

/-- x and y that differ only in byte 3. -/
theorem witness_confusionLaws_bytes :
    ∀ j : Fin 4, j ≠ 3 → (0x01020304#32).extractLsb' (24 - 8 * j.val) 8 = (0x010203FF#32).extractLsb' (24 - 8 * j.val) 8 := by decide

/-- The entries of a test ROM. -/
theorem romOf_T (f : Nat → Nat → Nat) (rc : Nat → Nat) (t : TableNumber) (i : TableIndex) :
    (romOf f rc).T t i = BitVec.ofNat 32 (f t.toNat i.toNat) := by
  have ht : t = 0#2 ∨ t = 1#2 ∨ t = 2#2 ∨ t = 3#2 := by revert t; decide
  rcases ht with rfl | rfl | rfl | rfl <;> simp [Rom.T, romOf, tableOf]

theorem witness_confusionLaws_zero : ∀ t i, romTZ.T t i = 0 := by
  intro t i
  rw [romTZ, romOf_T]
  rfl

theorem witness_confusionLaws_identity : ∀ t i, romTI.T t i = i.setWidth 32 <<< (24 - 8 * t.toNat) := by
  intro t i
  rw [romTI, romOf_T]
  apply BitVec.eq_of_toNat_eq
  simp [Nat.shiftLeft_eq]

/-- V-KS-1: gx0 < 0; V-KS-6: gx1 < 0; and sums that are not. -/
theorem witness_sums :
    gx0 0 0x9E3779B9#32 < 0 ∧ gx1 0xFFFFFFFF#128 0x3C6EF373#32 < 0 ∧ gx0 (1#128 <<< 96) 1#32 < 2 ^ 32 ∧ gx1 0 1#32 < 2 ^ 32 ∧
      (0xFFFFFFFF#128).extractLsb' 64 32 = 0#32 ∧ (0xFFFFFFFF#128).extractLsb' 0 32 = 0xFFFFFFFF#32 := by decide

theorem witness_hostTwoRoundsEqualDecrypt :
    ∃ s1 s2 s3 s4 s5 : State,
      exec (.ks 1) (ready romTI 1 2 0x3#32) = .next s1 ∧
      exec .f { s1 with din := s1.dout.extractLsb' 64 64 ++ 7#64, wrDin := allWritten } = .next s2 ∧
      exec (.ks 0) s2 = .next s3 ∧
      exec .f { s3 with din := s3.dout.extractLsb' 64 64 ++ (9#64 ^^^ s2.dout.extractLsb' 0 64) } = .next s4 ∧
      exec .dec { s4 with din := 9#64 ++ 7#64 } = .next s5 :=
  ⟨_, _, _, _, _, rfl, rfl, rfl, rfl, rfl⟩

theorem witness_stepRunsDecodedCommand :
    (ready romTI 1 2 0x5#32).busy = true ∧ decode (ready romTI 1 2 0x5#32).cmd = .ok .dec ∧ (ready romTI 1 2 0x5#32).turns = [] :=
  ⟨rfl, by decide, rfl⟩

theorem witness_illegalCommandCompletes :
    (State.reset.issue 0x6#32).busy = true ∧ decode (State.reset.issue 0x6#32).cmd = .error .opcUnassigned := by decide

/-- ERR is 1 in a busy state and a legal completion clears it. -/
theorem witness_errIsCleared :
    ∃ t, step (((ready romTI 1 2 0x5#32).completeIllegal.issue 0x2#32).withTurns [.core]) = .next t ∧
      ((ready romTI 1 2 0x5#32).completeIllegal.issue 0x2#32).err = true ∧ t.err = false :=
  ⟨_, rfl, rfl, rfl⟩

theorem witness_coreIdlesWithoutCommand : State.reset.busy = false ∧ State.reset.turns = [] := ⟨rfl, rfl⟩

theorem witness_errStaysVisible :
    State.reset.completeIllegal.busy = false ∧ State.reset.completeIllegal.err = true ∧
      (State.reset.writeDin 3 5).completeIllegal.operandsWritten .g = true ∧ (State.reset.writeDin 3 5).completeIllegal.err = true ∧
      (State.reset.writeDin 3 5).completeIllegal.busy = false := by decide

theorem witness_faultEndsTheRun :
    ({ state := State.reset, record := .faulted .unwrittenRead } : ModelRun).record = .faulted .unwrittenRead := rfl

/-- A step that is not a reset: an idle turn of the core, a completion, and an issue. -/
theorem witness_stepsAreTaken :
    (∃ t, step State.reset = .next t ∧ State.reset.nextTurn ≠ .reset) ∧
    (∃ t, step (ready romTI 1 2 0x5#32) = .next t ∧ (ready romTI 1 2 0x5#32).nextTurn ≠ .reset ∧
      t.busy = false ∧ (ready romTI 1 2 0x5#32).busy = true) ∧
    (∃ t, step (State.reset.withTurns [wr Config.pBase .cmd 0x2#32]) = .next t ∧
      (State.reset.withTurns [wr Config.pBase .cmd 0x2#32]).nextTurn ≠ .reset ∧ t.busy = true ∧ t.cmd ≠ State.reset.cmd) :=
  ⟨⟨_, rfl, by decide⟩, ⟨_, rfl, by decide, rfl, rfl⟩, ⟨_, step_wr_cmd rfl _ _, by simp [State.nextTurn, State.withTurns, wr], rfl, by decide⟩⟩

theorem witness_resultFlagsUniform :
    State.reset.doutFlagsUniform ∧ (State.reset.commit 5).doutFlagsUniform := ⟨.inl rfl, .inr rfl⟩

/-- Two different states that differ only in the value of the unwritten KEY. -/
theorem witness_unwrittenValuesAreUnobservable :
    State.sameWritten State.reset { State.reset with key := 5 } ∧ State.reset.key ≠ ({ State.reset with key := 5 } : State).key := by
  refine ⟨⟨rfl, rfl, rfl, rfl, rfl, rfl, rfl, rfl, rfl, ?_, ?_, ?_⟩, by decide⟩ <;>
    · intro w hw
      simp [State.reset] at hw

theorem witness_polledCommandCompletes :
    (ready romTI 1 2 0x5#32).busy = true ∧ decode (ready romTI 1 2 0x5#32).cmd = .ok .dec ∧
      (ready romTI 1 2 0x5#32).operandsWritten .dec = true := ⟨rfl, by decide, by decide⟩

theorem witness_decryptProgram : State.reset.busy = false := rfl

/-- An idle state whose host reads STATUS next, and a busy one whose command has its operands. -/
theorem witness_wellBehavedHost :
    (Access.read 4 (0 + Reg.offset .status)).readsUnwritten 0 State.reset = false ∧
      (Access.read 4 (0 + Reg.offset .status)).breaksBusyRule 0 = false ∧
      (ready romTI 1 2 0x5#32).nextTurn = .core ∧ (ready romTI 1 2 0x5#32).operandsWritten .dec = true := by decide

/-- At reset a read of KEY0 faults in the spec's model, and the machine goes on. -/
theorem witness_unwrittenReadFaultsExactly :
    modelStep (State.reset.withTurns [rd Config.pBase (.key 0)]) = .fault .unwrittenRead ∧
      ∃ t, step (State.reset.withTurns [rd Config.pBase (.key 0)]) = .next t :=
  ⟨modelStep_of_some (readFault_some_iff.2 ⟨rfl, _, _, _, _, rfl, admission_read .., rfl, rfl⟩), _, step_rd_key ..⟩

/-- V-X-5 before its completion: F with DIN0 to DIN2 unwritten; and with every word written the model goes on too. -/
theorem witness_unwrittenOperand :
    ((State.reset.writeDin 3 5).issue 0x4#32).busy = true ∧ decode ((State.reset.writeDin 3 5).issue 0x4#32).cmd = .ok .f ∧
      modelStep (((State.reset.writeDin 3 5).issue 0x4#32).withTurns [.core]) = .fault .unwrittenOperand ∧
      ∃ t, modelStep ((ready romTI 1 2 0x4#32).withTurns [.core]) = .next t := ⟨rfl, by decide, rfl, _, rfl⟩

/-- Each kind of outcome: a next state of both, a hazard, and a refusal. -/
theorem witness_modelErrsTowardUnprovable :
    (∃ t, modelStep State.reset = .next t) ∧
      step ((ready romTI 1 2 0x5#32).withTurns [wr Config.pBase .cmd 0x2#32]) = .fault .hazardCmdWrite ∧
      step (State.reset.withTurns [.host (.read 1 0)]) = .refused .accessWidth :=
  ⟨⟨_, rfl⟩, step_wr .., rfl⟩

/-- Four tables of 256 Words and 16 constants are accepted. -/
theorem ofLists_accepts {t0 t1 t2 t3 cs : List Word} (h0 : t0.length = 256) (h1 : t1.length = 256) (h2 : t2.length = 256)
    (h3 : t3.length = 256) (hc : cs.length = 16) : ∃ r, Rom.ofLists [t0, t1, t2, t3] cs = .ok r := by
  simp [Rom.ofLists, h0, h1, h2, h3, hc]

theorem witness_configurationAccepted :
    ∃ r, Rom.ofLists [List.replicate 256 1, List.replicate 256 2, List.replicate 256 3, List.replicate 256 4] (List.replicate 16 5) = .ok r :=
  ofLists_accepts List.length_replicate List.length_replicate List.length_replicate List.length_replicate List.length_replicate

end Sys2Proof.Tests
end

section
/-! PROOFS. The state (spec/10_state.md): what a step can do as one inductive relation with a name for each case, and the
invariants of the ROMs, the operand registers, DOUT, the wr_ flags and STATUS that follow from it by cases. -/

namespace Sys2Proof.Machine

open Sys2Proof

/-- With no command in flight the core's turn changes nothing (R116, Assumption 6). -/
theorem coreTurn_idle {s : State} (hb : s.busy = false) : coreTurn s = .next s := by
  simp [coreTurn, hb]

/-- The core's turn with an illegal command in flight sets ERR (R98). -/
theorem coreTurn_illegal {s : State} {e : Illegal} (hb : s.busy = true) (hd : decode s.cmd = .error e) :
    coreTurn s = .next s.completeIllegal := by
  simp only [coreTurn, complete, hb, hd, if_true]

/-- What one step of the machine does, one constructor per turn and outcome: `step_effect_cases` with its cases named. -/
inductive StepEffect (s : State) : State → Prop
  /-- the core's turn with no command in flight (R116) -/
  | idle (turn : s.nextTurn = .core) (busy : s.busy = false) : StepEffect s (s.withTurns s.turns.tail)
  /-- the completion of an illegal command (R98) -/
  | illegal (turn : s.nextTurn = .core) (busy : s.busy = true) (word : ∃ e, decode s.cmd = .error e) :
      StepEffect s (s.completeIllegal.withTurns s.turns.tail)
  /-- the completion of a legal command (R119) -/
  | legal (i : Instr) (turn : s.nextTurn = .core) (busy : s.busy = true) (word : decode s.cmd = .ok i) :
      StepEffect s ((s.commit (resultOf i s)).withTurns s.turns.tail)
  /-- a platform reset (R115) -/
  | reset (turn : s.nextTurn = .reset) : StepEffect s (s.platformReset.withTurns s.turns.tail)
  /-- a host read that is answered (R37) -/
  | read (r : Reg) (v : Word) (turn : s.nextTurn = rd Config.pBase r) (value : hostRead s r = .ok v) :
      StepEffect s ((s.receive v).withTurns s.turns.tail)
  /-- a host write of a word of KEY (R38) -/
  | writeKey (w : Fin 4) (v : Word) (turn : s.nextTurn = wr Config.pBase (.key w) v) (busy : s.busy = false) :
      StepEffect s ((s.writeKey w v).withTurns s.turns.tail)
  /-- a host write of a word of DIN (R38) -/
  | writeDin (w : Fin 4) (v : Word) (turn : s.nextTurn = wr Config.pBase (.din w) v) (busy : s.busy = false) :
      StepEffect s ((s.writeDin w v).withTurns s.turns.tail)
  /-- a host write of CMD (R118) -/
  | issue (v : Word) (turn : s.nextTurn = wr Config.pBase .cmd v) (busy : s.busy = false) :
      StepEffect s ((s.issue v).withTurns s.turns.tail)
  /-- a host write of DOUT or STATUS, which is ignored (R38) -/
  | ignored (r : Reg) (v : Word) (turn : s.nextTurn = wr Config.pBase r v) (target : (∃ w, r = .dout w) ∨ r = .status) :
      StepEffect s (s.withTurns s.turns.tail)

/-- A step that answers a next state has one of the effects. -/
theorem stepEffect_of_step {s t : State} (h : step s = .next t) : StepEffect s t := by
  rcases step_effect_cases h with ⟨hn, hb, rfl⟩ | ⟨hn, hb, he, rfl⟩ | ⟨hn, hb, i, hd, rfl⟩ | ⟨hn, rfl⟩ |
    ⟨r, v, hn, hv, rfl⟩ | ⟨w, v, hn, hb, rfl⟩ | ⟨w, v, hn, hb, rfl⟩ | ⟨v, hn, hb, rfl⟩ | ⟨r, v, hn, hr, rfl⟩
  · exact .idle hn hb
  · exact .illegal hn hb he
  · exact .legal i hn hb hd
  · exact .reset hn
  · exact .read r v hn hv
  · exact .writeKey w v hn hb
  · exact .writeDin w v hn hb
  · exact .issue v hn hb
  · exact .ignored r v hn hr

/-- Settles O41: every effect of a step, a reset among them, keeps the field `rom`. -/
theorem romNeverChanges : Obligations.RomNeverChanges := by
  intro s t h
  cases stepEffect_of_step h with
  | idle | illegal | legal | reset | read | writeKey | writeDin | issue | ignored => rfl

/-! ### KEY and DIN -/

/-- KEY and its flags change only by a host write of a word of KEY, or by reset (R19, R123). -/
theorem StepEffect.key_unchanged_or_written {s t : State} (h : StepEffect s t) (hr : s.nextTurn ≠ .reset) :
    (t.key = s.key ∧ t.wrKey = s.wrKey) ∨ ∃ w, s.nextTurn.writesTo (.key w) := by
  cases h with
  | reset turn => exact absurd turn hr
  | writeKey w v turn => exact .inr ⟨w, v, turn⟩
  | idle | illegal | legal | read | writeDin | issue | ignored => exact .inl ⟨rfl, rfl⟩

/-- DIN and its flags change only by a host write of a word of DIN, or by reset (R20, R123). -/
theorem StepEffect.din_unchanged_or_written {s t : State} (h : StepEffect s t) (hr : s.nextTurn ≠ .reset) :
    (t.din = s.din ∧ t.wrDin = s.wrDin) ∨ ∃ w, s.nextTurn.writesTo (.din w) := by
  cases h with
  | reset turn => exact absurd turn hr
  | writeDin w v turn => exact .inr ⟨w, v, turn⟩
  | idle | illegal | legal | read | writeKey | issue | ignored => exact .inl ⟨rfl, rfl⟩

/-- Settles O42. -/
theorem operandsChangeOnlyByHostWrite : Obligations.OperandsChangeOnlyByHostWrite := fun _ _ h hr =>
  have he := stepEffect_of_step h
  ⟨he.key_unchanged_or_written hr, he.din_unchanged_or_written hr⟩

/-! ### DOUT -/

/-- A legal completion that the spec's model answers has its operand words written (R100, R119). -/
theorem operandsWritten_of_modelStep_next {s t : State} {i : Instr} (hm : modelStep s = .next t)
    (hn : s.nextTurn = .core) (hb : s.busy = true) (hd : decode s.cmd = .ok i) : s.operandsWritten i = true := by
  have hnone : completionFault s = none := by simpa only [unwrittenFault, hn] using (modelStep_next_iff.1 hm).1
  by_contra hw
  have hsome := completionFault_some_iff.2 ⟨rfl, hb, i, hd, Bool.eq_false_of_not_eq_true hw⟩
  simp [hnone] at hsome

/-- Settles O43: of the effects, only `legal` and `reset` touch DOUT. -/
theorem resultChangesOnlyByLegalCompletion : Obligations.ResultChangesOnlyByLegalCompletion := by
  intro s t h hr
  cases stepEffect_of_step h with
  | reset turn => exact absurd turn hr
  | legal i turn busy word =>
    exact .inr ⟨turn, busy, i, word, fun hm => operandsWritten_of_modelStep_next hm turn busy word⟩
  | idle | illegal | read | writeKey | writeDin | issue | ignored => exact .inl ⟨rfl, rfl⟩

/-! ### BUSY, ERR and CMD -/

/-- BUSY rises only by a host write of CMD (R118). -/
theorem StepEffect.writesTo_cmd_of_busy_rises {s t : State} (h : StepEffect s t) (hs : s.busy = false) (ht : t.busy = true) :
    s.nextTurn.writesTo .cmd := by
  cases h with
  | issue v turn => exact ⟨v, turn⟩
  | idle | illegal | legal | reset | read | writeKey | writeDin | ignored => simp [hs] at ht

/-- BUSY falls only at the core's turn, or by reset (R119). -/
theorem StepEffect.core_of_busy_falls {s t : State} (h : StepEffect s t) (hr : s.nextTurn ≠ .reset) (hs : s.busy = true)
    (ht : t.busy = false) : s.nextTurn = .core := by
  cases h with
  | reset turn => exact absurd turn hr
  | idle turn | illegal turn | legal _ turn => exact turn
  | read | writeKey | writeDin | issue | ignored => simp [hs] at ht

/-- ERR changes only at a completion, or by reset (R98, R118, R119). -/
theorem StepEffect.completion_of_err_changes {s t : State} (h : StepEffect s t) (hr : s.nextTurn ≠ .reset)
    (he : t.err ≠ s.err) : s.nextTurn = .core ∧ s.busy = true ∧ t.busy = false := by
  cases h with
  | reset turn => exact absurd turn hr
  | illegal turn busy | legal _ turn busy => exact ⟨turn, busy, rfl⟩
  | idle | read | writeKey | writeDin | issue | ignored => exact absurd rfl he

/-- CMD changes only by a host write of CMD, or by reset (R22, R118). -/
theorem StepEffect.writesTo_cmd_of_cmd_changes {s t : State} (h : StepEffect s t) (hr : s.nextTurn ≠ .reset)
    (hc : t.cmd ≠ s.cmd) : s.nextTurn.writesTo .cmd := by
  cases h with
  | reset turn => exact absurd turn hr
  | issue v turn => exact ⟨v, turn⟩
  | idle | illegal | legal | read | writeKey | writeDin | ignored => exact absurd rfl hc

/-- Settles O44. -/
theorem statusChangesOnlyByLifeCycle : Obligations.StatusChangesOnlyByLifeCycle := fun _ _ h hr =>
  have he := stepEffect_of_step h
  ⟨he.writesTo_cmd_of_busy_rises, he.core_of_busy_falls hr, he.completion_of_err_changes hr,
    he.writesTo_cmd_of_cmd_changes hr⟩

/-! ### The wr_ flags and STATUS -/

/-- Settles O46: a legal completion sets the four flags together, a reset clears them together, and no other effect touches
them. -/
theorem stepKeepsResultFlagsUniform : Obligations.StepKeepsResultFlagsUniform := by
  intro s t hu h
  cases stepEffect_of_step h with
  | legal => exact .inr rfl
  | reset => exact .inl rfl
  | idle | illegal | read | writeKey | writeDin | issue | ignored => exact hu

/-- Settles O45: every effect but a reset leaves a row of flags alone, sets one flag of it, or sets them all. -/
theorem writtenFlagsNeverClear : Obligations.WrittenFlagsNeverClear := by
  intro s t h hr w
  cases stepEffect_of_step h with
  | reset turn => exact absurd turn hr
  | legal => exact ⟨id, id, fun _ => allWritten_getElem w w.isLt⟩
  | writeKey w' => exact ⟨flag_set_mono s.wrKey w' w, id, id⟩
  | writeDin w' => exact ⟨id, flag_set_mono s.wrDin w' w, id⟩
  | idle | illegal | read | issue | ignored => exact ⟨id, id, id⟩

/-- Settles O47. -/
theorem resetResultFlagsUniform : Obligations.ResetResultFlagsUniform := .inl rfl

/-- The bits of the word that STATUS reads (R23). -/
theorem statusWord_bits : ∀ busy err : Bool, (statusWord busy err).getLsbD 0 = busy ∧
    (statusWord busy err).getLsbD 1 = err ∧ (statusWord busy err).extractLsb' 2 30 = 0#30 := by
  decide

/-- STATUS reads 0 with no command in flight and no error (R31). -/
theorem statusWord_clear : statusWord false false = 0x00000000#32 := by decide

/-- Settles O48. -/
theorem statusReadsBusyAndErr : Obligations.StatusReadsBusyAndErr := fun s => statusWord_bits s.busy s.err

end Sys2Proof.Machine
end

section
/-! PROOFS. A command's completion: what it leaves unchanged (spec/10_state.md R18 to R30), and that its result depends on
its operand words and the ROMs alone (R29). -/

namespace Sys2Proof.Machine

open Sys2Proof

/-- Settles O20: a completion is `State.commit`, which touches DOUT, its flags and STATUS alone. -/
theorem commandFrame : Obligations.CommandFrame := by
  intro i s t h
  rw [exec_eq] at h
  cases h
  exact ⟨rfl, rfl, rfl, rfl, rfl, rfl, rfl, rfl, rfl, rfl, fun w => allWritten_getElem w w.isLt⟩

theorem mem_keyWords (w : Fin 4) : OperandWord.key w ∈ keyWords := by
  revert w; decide

theorem mem_dinWords (w : Fin 4) : OperandWord.din w ∈ dinWords := by
  revert w; decide

/-- The results of a command agree where the ROMs and the operand words it reads do (R29, R100). -/
theorem resultOf_congr {i : Instr} {s t : State} (hrom : s.rom = t.rom)
    (hkey : ∀ w, .key w ∈ operandWords i → getWord s.key w = getWord t.key w)
    (hdin : ∀ w, .din w ∈ operandWords i → getWord s.din w = getWord t.din w) : resultOf i s = resultOf i t := by
  cases i with
  | tlu n =>
    have h3 := hdin 3 (by simp [operandWords])
    simp only [resultOf, State.opIndex_eq, h3, hrom]
  | g =>
    have h3 := hdin 3 (by simp [operandWords])
    simp only [resultOf, State.opWord_eq, h3, hrom]
  | ks n =>
    have hk : s.key = t.key := eq_of_words fun w => hkey w (mem_keyWords w)
    simp only [resultOf, State.opKey, hk, hrom]
  | f =>
    have hd : s.din = t.din := eq_of_words fun w => hdin w (mem_dinWords w)
    simp only [resultOf, State.opPair, State.opHalf, hd, hrom]
  | dec =>
    have hd : s.din = t.din := eq_of_words fun w => hdin w (List.mem_append_left _ (mem_dinWords w))
    have hk : s.key = t.key := eq_of_words fun w => hkey w (List.mem_append_right _ (mem_keyWords w))
    simp only [resultOf, State.opBlock, State.opKey, hd, hk, hrom]

/-- Settles O21. -/
theorem resultDependsOnlyOnOperands : Obligations.ResultDependsOnlyOnOperands := by
  intro i s t s' t' hrom hkey hdin hs ht
  rw [exec_eq] at hs ht
  cases hs
  cases ht
  exact resultOf_congr hrom hkey hdin

end Sys2Proof.Machine
end

section
/-! PROOFS. Reads and writes of a host in the spec's model (spec/20_memory.md R37, R38), and what a reset leaves
(spec/10_state.md R31, spec/70_reset_and_hazards.md R115). -/

namespace Sys2Proof.Machine

open Sys2Proof

/-- An answered write listed first does the same whatever turns follow, in the spec's model. -/
theorem modelStep_wr_ok {s u : State} {r : Reg} {v : Word} (hw : hostWrite s r v = .ok u) (ts : List Turn) :
    modelStep (s.withTurns (wr Config.pBase r v :: ts)) = .next (u.withTurns ts) := by
  have hts : hostWrite (s.withTurns ts) r v = .ok (u.withTurns ts) := by
    rcases hostWrite_ok_cases hw with ⟨w, rfl, hb, rfl⟩ | ⟨w, rfl, hb, rfl⟩ | ⟨rfl, hb, rfl⟩ | ⟨rfl, ⟨w, rfl⟩ | rfl⟩
    · simp only [hostWrite, State.withTurns_busy, hb]; rfl
    · simp only [hostWrite, State.withTurns_busy, hb]; rfl
    · simp only [hostWrite, State.withTurns_busy, hb]; rfl
    · rfl
    · rfl
  rw [modelStep_wr, hts]

/-- An answered read of a written word listed first delivers the word, in the spec's model (R37). -/
theorem modelStep_rd_written {s : State} {r : Reg} {v : Word} (hv : hostRead s r = .ok v) (hu : s.unwritten r = false)
    (ts : List Turn) : modelStep (s.withTurns (rd Config.pBase r :: ts)) = .next ((s.receive v).withTurns ts) := by
  simp [modelStep_rd, hv, hu]

/-- A read of an unwritten word listed first faults in the spec's model, where no hazard comes first (R99). -/
theorem modelStep_rd_unwritten {s : State} {r : Reg} {v : Word} (hv : hostRead s r = .ok v) (hu : s.unwritten r = true)
    (ts : List Turn) : modelStep (s.withTurns (rd Config.pBase r :: ts)) = .fault .unwrittenRead := by
  simp [modelStep_rd, hv, hu]

/-- A write and then a read of the same register run to the state in which the host has received the read's value. -/
theorem runsTo_wr_rd {s u : State} {r : Reg} {v x : Word} (hw : hostWrite s r v = .ok u) (hx : hostRead u r = .ok x)
    (hu : u.unwritten r = false) (ts : List Turn) :
    (s.withTurns (wr Config.pBase r v :: rd Config.pBase r :: ts)).runsTo 2 ((u.receive x).withTurns ts) :=
  runsTo_succ (modelStep_wr_ok hw _) (runsTo_succ (modelStep_rd_written hx hu ts) (runsTo_zero _))

/-- Settles O11: the write sets the word and its flag, and the read of CMD is allowed while its command is in flight. -/
theorem writeThenReadReturnsValue : Obligations.WriteThenReadReturnsValue := by
  rintro s r v ts hb (rfl | ⟨w, rfl | rfl⟩)
  · have hw : hostWrite s .cmd v = .ok (s.issue v) := by simp [hostWrite, hb]
    exact ⟨_, runsTo_wr_rd hw rfl rfl ts, rfl, rfl⟩
  · have hw : hostWrite s (.key w) v = .ok (s.writeKey w v) := by simp [hostWrite, hb]
    have hx : hostRead (s.writeKey w v) (.key w) = .ok v := by simp [hostRead]
    exact ⟨_, runsTo_wr_rd hw hx (by simp [State.unwritten]) ts, rfl, rfl⟩
  · have hw : hostWrite s (.din w) v = .ok (s.writeDin w v) := by simp [hostWrite, hb]
    have hx : hostRead (s.writeDin w v) (.din w) = .ok v := by simp [hostRead]
    exact ⟨_, runsTo_wr_rd hw hx (by simp [State.unwritten]) ts, rfl, rfl⟩

/-- Settles O37. -/
theorem resetFromAnyState : Obligations.ResetFromAnyState := by
  intro s ts
  refine ⟨(s.withTurns ts).platformReset, step_reset s ts, rfl, statusWord_clear, rfl, rfl, rfl, rfl, rfl, ?_, ?_⟩
  · intro us
    rw [step_core]
    exact coreTurn_idle rfl
  · intro w us
    exact ⟨modelStep_rd_unwritten rfl (by simp [State.unwritten]) us,
      modelStep_rd_unwritten rfl (by simp [State.unwritten]) us, modelStep_rd_unwritten rfl (by simp [State.unwritten]) us⟩

/-- Settles O38: the ROM of the reset state is the one of the configuration. -/
theorem runStartsInResetState : Obligations.RunStartsInResetState := by
  refine ⟨rfl, rfl, rfl, rfl, rfl, rfl, fun w => ?_, fun t i => ?_, ofConfig_RC⟩
  · have hw := noneWritten_getElem w w.isLt
    exact ⟨hw, hw, hw⟩
  · have ht : (⟨(BitVec.ofNat 2 t.val).toNat, BitVec.isLt _⟩ : Fin 4) = t := Fin.ext (by simp)
    have hi : (⟨(BitVec.ofNat 8 i.val).toNat, BitVec.isLt _⟩ : Fin 256) = i := Fin.ext (by simp)
    exact (ofConfig_T _ _).trans (congrArg₂ Config.pT ht hi)

end Sys2Proof.Machine
end

section
/-! PROOFS. No step of the spec's model can tell two states apart that differ only in unwritten words (spec/10_state.md R29,
spec/60_exceptions.md R99, R100). `State.AgreesOnWritten` names the fields of `State.sameWritten`; every operation keeps it, the
two states meet the same fault on an unwritten word, and where they meet none the machine's outcomes agree. -/

namespace Sys2Proof.Machine

open Sys2Proof

/-- `State.sameWritten` with its clauses named. -/
structure State.AgreesOnWritten (s t : State) : Prop where
  cmd : s.cmd = t.cmd
  busy : s.busy = t.busy
  err : s.err = t.err
  wrKey : s.wrKey = t.wrKey
  wrDin : s.wrDin = t.wrDin
  wrDout : s.wrDout = t.wrDout
  rom : s.rom = t.rom
  turns : s.turns = t.turns
  received : s.received = t.received
  key : ∀ w : Fin 4, s.wrKey[w] = true → getWord s.key w = getWord t.key w
  din : ∀ w : Fin 4, s.wrDin[w] = true → getWord s.din w = getWord t.din w
  dout : ∀ w : Fin 4, s.wrDout[w] = true → getWord s.dout w = getWord t.dout w

theorem State.sameWritten_iff {s t : State} : s.sameWritten t ↔ s.AgreesOnWritten t :=
  ⟨fun ⟨hc, hb, he, hwk, hwd, hwo, hr, ht, hv, hk, hd, ho⟩ => ⟨hc, hb, he, hwk, hwd, hwo, hr, ht, hv, hk, hd, ho⟩,
    fun ⟨hc, hb, he, hwk, hwd, hwo, hr, ht, hv, hk, hd, ho⟩ => ⟨hc, hb, he, hwk, hwd, hwo, hr, ht, hv, hk, hd, ho⟩⟩

/-- The two relations are the same one. -/
theorem State.sameWritten_eq : State.sameWritten = State.AgreesOnWritten := by
  funext s t
  exact propext State.sameWritten_iff

/-- After a write of word w, two registers that agreed on the words with their flag set agree on those and on w. -/
theorem getWord_putWord_agree {f : Vector Bool 4} {p q : BitVec 128}
    (h : ∀ w : Fin 4, f[w] = true → getWord p w = getWord q w) (w : Fin 4) (v : Word) (w' : Fin 4)
    (hf : (f.set w true)[w'] = true) : getWord (putWord p w v) w' = getWord (putWord q w v) w' := by
  by_cases hw : w = w'
  · subst hw
    rw [getWord_putWord_same, getWord_putWord_same]
  · rw [getWord_putWord_ne _ _ hw, getWord_putWord_ne _ _ hw]
    exact h w' (by rwa [flag_set_ne f hw] at hf)

namespace State.AgreesOnWritten

variable {s t : State}

/-! ### The operations keep the relation -/

theorem withTurns (h : s.AgreesOnWritten t) (ts : List Turn) : (s.withTurns ts).AgreesOnWritten (t.withTurns ts) :=
  { h with turns := rfl }

theorem receive (h : s.AgreesOnWritten t) (v : Word) : (s.receive v).AgreesOnWritten (t.receive v) :=
  { h with received := congrArg (· ++ [v]) h.received }

theorem issue (h : s.AgreesOnWritten t) (v : Word) : (s.issue v).AgreesOnWritten (t.issue v) :=
  { h with cmd := rfl, busy := rfl }

theorem completeIllegal (h : s.AgreesOnWritten t) : s.completeIllegal.AgreesOnWritten t.completeIllegal :=
  { h with busy := rfl, err := rfl }

theorem commit (h : s.AgreesOnWritten t) (d : Block) : (s.commit d).AgreesOnWritten (t.commit d) :=
  { h with busy := rfl, err := rfl, wrDout := rfl, dout := fun _ _ => rfl }

theorem writeKey (h : s.AgreesOnWritten t) (w : Fin 4) (v : Word) : (s.writeKey w v).AgreesOnWritten (t.writeKey w v) :=
  { h with wrKey := congrArg (·.set w true) h.wrKey, key := getWord_putWord_agree h.key w v }

theorem writeDin (h : s.AgreesOnWritten t) (w : Fin 4) (v : Word) : (s.writeDin w v).AgreesOnWritten (t.writeDin w v) :=
  { h with wrDin := congrArg (·.set w true) h.wrDin, din := getWord_putWord_agree h.din w v }

theorem platformReset (h : s.AgreesOnWritten t) : s.platformReset.AgreesOnWritten t.platformReset where
  cmd := rfl
  busy := rfl
  err := rfl
  wrKey := rfl
  wrDin := rfl
  wrDout := rfl
  rom := h.rom
  turns := h.turns
  received := h.received
  key _ _ := rfl
  din _ _ := rfl
  dout _ _ := rfl

/-! ### The two states meet the same fault on an unwritten word -/

theorem unwritten_eq (h : s.AgreesOnWritten t) (r : Reg) : s.unwritten r = t.unwritten r := by
  cases r <;> simp only [State.unwritten, h.wrKey, h.wrDin, h.wrDout]

theorem written_eq (h : s.AgreesOnWritten t) : s.written = t.written := by
  funext o
  cases o <;> simp only [State.written, h.wrKey, h.wrDin]

theorem operandsWritten_eq (h : s.AgreesOnWritten t) (i : Instr) : s.operandsWritten i = t.operandsWritten i := by
  simp only [State.operandsWritten, h.written_eq]

theorem completionFault_eq (h : s.AgreesOnWritten t) : completionFault s = completionFault t := by
  simp only [completionFault, h.busy, h.cmd, h.operandsWritten_eq]

/-- A read that meets a hazard does so in both states, and the flags say the rest. -/
theorem readFault_eq (h : s.AgreesOnWritten t) (base : Nat) (a : Access) : readFault base a s = readFault base a t := by
  cases a with
  | write n ad v => cases ha : admission base (.write n ad v) <;> simp only [readFault, ha]
  | read n ad =>
    cases ha : admission base (.read n ad) with
    | error e => simp only [readFault, ha]
    | ok r =>
      cases r with
      | key | din | cmd | status => simp only [readFault, ha, hostRead, h.unwritten_eq]
      | dout => cases hb : t.busy <;> simp [readFault, ha, hostRead, h.unwritten_eq, h.busy, hb]

theorem nextTurn_eq (h : s.AgreesOnWritten t) : s.nextTurn = t.nextTurn := by
  simp only [State.nextTurn, h.turns]

theorem unwrittenFault_eq (h : s.AgreesOnWritten t) (base : Nat) : unwrittenFault base s = unwrittenFault base t := by
  simp only [unwrittenFault, h.nextTurn_eq, h.readFault_eq, h.completionFault_eq]

end State.AgreesOnWritten

/-! ### Where they meet none, the machine's outcomes agree -/

/-- An outcome of the machine as the spec's model records it (R102). -/
def modelOutcome : Host.Outcome State Fault Refusal → Host.Outcome State ModelFault Refusal
  | .next t => .next t
  | .fault e => .fault e.reason
  | .refused r => .refused r

/-- With no unwritten word met, a step of the spec's model is the machine's. -/
theorem modelStep_eq_modelOutcome {s : State} (h : unwrittenFault Config.pBase s = none) :
    modelStep s = modelOutcome (step s) := by
  rw [modelStep_of_none h]
  cases step s <;> rfl

/-- The machine's outcomes agree when the model's records of them do. -/
def outcomesMatch (a b : Host.Outcome State Fault Refusal) : Prop :=
  outcomesAgree State.AgreesOnWritten (modelOutcome a) (modelOutcome b)

/-- Two admitted writes meet the same hazard, or lead to states that differ only in unwritten words. -/
def writesMatch (a b : Except Fault State) : Prop :=
  (∃ e, a = .error e ∧ b = .error e) ∨ ∃ s t, a = .ok s ∧ b = .ok t ∧ s.AgreesOnWritten t

theorem writesMatch_unless_hazard {hazard : Bool} {e : Fault} {s t : State} (h : s.AgreesOnWritten t) :
    writesMatch (if hazard then .error e else .ok s) (if hazard then .error e else .ok t) := by
  cases hazard with
  | true => exact .inl ⟨e, rfl, rfl⟩
  | false => exact .inr ⟨s, t, rfl, rfl, h⟩

/-- The listed turns play no part in the fault that a completion meets. -/
@[simp] theorem completionFault_withTurns (s : State) (ts : List Turn) :
    completionFault (s.withTurns ts) = completionFault s := by
  simp only [completionFault, State.withTurns_busy, State.withTurns_cmd, operandsWritten_withTurns]

/-- The listed turns play no part in the fault that a read meets. -/
@[simp] theorem readFault_withTurns (base : Nat) (a : Access) (s : State) (ts : List Turn) :
    readFault base a (s.withTurns ts) = readFault base a s := by
  simp only [readFault, hostRead_withTurns, unwritten_withTurns]

namespace State.AgreesOnWritten

variable {s t : State}

/-- A read of a written word, or of CMD or STATUS, gives the same value or the same hazard. -/
theorem hostRead_eq (h : s.AgreesOnWritten t) {r : Reg} (hu : s.unwritten r = false) : hostRead s r = hostRead t r := by
  cases r with
  | key w => simp only [hostRead, h.key w (by simpa [State.unwritten] using hu)]
  | din w => simp only [hostRead, h.din w (by simpa [State.unwritten] using hu)]
  | dout w => simp only [hostRead, h.busy, h.dout w (by simpa [State.unwritten] using hu)]
  | cmd => simp only [hostRead, h.cmd]
  | status => simp only [hostRead, State.status_eq, h.busy, h.err]

/-- A hazard on a read does not depend on the word's value. -/
theorem hostRead_hazard (h : s.AgreesOnWritten t) {r : Reg} {e : Fault} (he : hostRead s r = .error e) :
    hostRead t r = .error e := by
  cases r with
  | dout w =>
    cases hb : s.busy with
    | false => simp [hostRead, hb] at he
    | true => simpa [hostRead, ← h.busy, hb] using he
  | key | din | cmd | status => simp [hostRead] at he

/-- A command whose operand words are written computes the same result. -/
theorem resultOf_eq (h : s.AgreesOnWritten t) {i : Instr} (hw : s.operandsWritten i = true) : resultOf i s = resultOf i t := by
  have hall : ∀ o ∈ operandWords i, s.written o = true := List.all_eq_true.1 hw
  exact resultOf_congr h.rom (fun w hm => h.key w (hall _ hm)) (fun w hm => h.din w (hall _ hm))

/-- The core's turn. -/
theorem coreTurn_match (h : s.AgreesOnWritten t) (hf : completionFault s = none) : outcomesMatch (coreTurn s) (coreTurn t) := by
  cases hb : s.busy with
  | false =>
    rw [coreTurn_idle hb, coreTurn_idle (h.busy ▸ hb)]
    exact h
  | true =>
    cases hd : decode s.cmd with
    | error e =>
      rw [coreTurn_illegal hb hd, coreTurn_illegal (h.busy ▸ hb) (h.cmd ▸ hd)]
      exact h.completeIllegal
    | ok i =>
      have hw : s.operandsWritten i = true := by simpa [completionFault, hb, hd] using hf
      rw [coreTurn_legal hb hd, coreTurn_legal (h.busy ▸ hb) (h.cmd ▸ hd), h.resultOf_eq hw]
      exact h.commit _

/-- An admitted write gives the same hazard, or related states. -/
theorem hostWrite_match (h : s.AgreesOnWritten t) (r : Reg) (v : Word) : writesMatch (hostWrite s r v) (hostWrite t r v) := by
  cases r with
  | key w =>
    simp only [hostWrite, h.busy]
    exact writesMatch_unless_hazard (h.writeKey w v)
  | din w =>
    simp only [hostWrite, h.busy]
    exact writesMatch_unless_hazard (h.writeDin w v)
  | cmd =>
    simp only [hostWrite, h.busy]
    exact writesMatch_unless_hazard (h.issue v)
  | dout | status => exact .inr ⟨_, _, rfl, rfl, h⟩

/-- One access of the host. -/
theorem busAccess_match (h : s.AgreesOnWritten t) {base : Nat} {a : Access} (hf : readFault base a s = none) :
    outcomesMatch (busAccess base a s) (busAccess base a t) := by
  cases ha : admission base a with
  | error e =>
    simp only [busAccess, ha]
    exact rfl
  | ok r =>
    cases a with
    | write n ad v =>
      rcases h.hostWrite_match r v with ⟨e, hs, ht⟩ | ⟨s', t', hs, ht, hst⟩
      · simp only [busAccess, ha, hs, ht]
        exact rfl
      · simp only [busAccess, ha, hs, ht]
        exact hst
    | read n ad =>
      cases hs : hostRead s r with
      | error e =>
        simp only [busAccess, ha, hs, h.hostRead_hazard hs]
        exact rfl
      | ok v =>
        have hu : s.unwritten r = false := by simpa [readFault, ha, hs] using hf
        have ht : hostRead t r = .ok v := h.hostRead_eq hu ▸ hs
        simp only [busAccess, ha, hs, ht]
        exact h.receive v

/-- The step takes the turn that both states list first. -/
theorem step_match (h : s.AgreesOnWritten t) (hf : unwrittenFault Config.pBase s = none) : outcomesMatch (step s) (step t) := by
  have hturns := h.turns
  cases hs : s.turns with
  | nil =>
    simp only [step, takeTurn, hs, hturns ▸ hs]
    exact h.coreTurn_match (by simpa only [unwrittenFault, nextTurn_nil hs] using hf)
  | cons u ts =>
    simp only [step, takeTurn, hs, hturns ▸ hs]
    simp only [unwrittenFault, nextTurn_cons hs] at hf
    cases u with
    | core => exact (h.withTurns ts).coreTurn_match (by rwa [completionFault_withTurns])
    | host a => exact (h.withTurns ts).busAccess_match (by rwa [readFault_withTurns])
    | reset => exact (h.withTurns ts).platformReset

end State.AgreesOnWritten

/-- Settles O49: both states meet the same fault on an unwritten word, or the machine's outcomes agree. -/
theorem unwrittenValuesAreUnobservable : Obligations.UnwrittenValuesAreUnobservable := by
  intro s t hst
  have h := State.sameWritten_iff.1 hst
  cases hf : unwrittenFault Config.pBase s with
  | some e =>
    rw [modelStep_of_some hf, modelStep_of_some (h.unwrittenFault_eq _ ▸ hf)]
    exact rfl
  | none =>
    rw [modelStep_eq_modelOutcome hf, modelStep_eq_modelOutcome (h.unwrittenFault_eq _ ▸ hf), State.sameWritten_eq]
    exact h.step_match hf

end Sys2Proof.Machine
end

section
/-! PROOFS. The register block (spec/20_memory.md): the address map (R32) and admission (R36), what an admitted read
delivers and an admitted write does (R37, R38), the writes that fill or share a register (R34, R39), and the turn a step
takes. -/

namespace Sys2Proof.Machine

open Sys2Proof

/-! ### The address map and admission -/

/-- The map of R32, both ways. -/
theorem regAt_eq_some_iff {off : Nat} {r : Reg} : regAt off = some r ↔ off = r.offset :=
  ⟨offset_of_regAt, fun h => h ▸ regAt_offset r⟩

/-- Settles O7. -/
theorem addressMapExact : Obligations.AddressMapExact :=
  ⟨fun _ _ => regAt_eq_some_iff, fun _ => ⟨Nat.zero_add _, rfl, rfl⟩, rfl, rfl⟩

/-- The three conditions of R36, over the integers: an address at a register word's offset is aligned already. -/
theorem admitted_iff_conditions {base : Nat} {a : Access} :
    (∃ r, admission base a = .ok r) ↔
      a.width = 4 ∧ ((a.addr : Int) - base) % 4 = 0 ∧ ∃ r : Reg, (a.addr : Int) - base = r.offset := by
  constructor
  · rintro ⟨r, hr⟩
    obtain ⟨hw, ha⟩ := admission_ok_inv hr
    have h4 := offset_mod_four r
    exact ⟨hw, by omega, r, by omega⟩
  · rintro ⟨hw, -, r, ha⟩
    exact ⟨r, admission_at hw (by omega)⟩

/-- A host step is refused exactly when its access is not admitted: no admitted access is refused. -/
theorem busAccess_refused_iff {base : Nat} {a : Access} {s : State} :
    (∃ e, busAccess base a s = .refused e) ↔ ¬ ∃ r, admission base a = .ok r := by
  cases ha : admission base a with
  | error e => simp [busAccess, ha]
  | ok r =>
    cases a with
    | read n ad => cases hv : hostRead s r <;> simp [busAccess, ha, hv]
    | write n ad v => cases hw : hostWrite s r v <;> simp [busAccess, ha, hw]

/-- Settles O8: the state plays no part in the admission. -/
theorem admissionExactly : Obligations.AdmissionExactly := by
  intro s a ts
  rw [step_host, busAccess_refused_iff, admitted_iff_conditions]

/-! ### Reads -/

/-- STATUS as R37 writes it: thirty zero bits over ERR and BUSY. -/
theorem status_eq_append (s : State) : s.status = 0#30 ++ (BitVec.ofBool s.err ++ BitVec.ofBool s.busy) := by
  have hbits : ∀ busy err : Bool, statusWord busy err = 0#30 ++ (BitVec.ofBool err ++ BitVec.ofBool busy) := by decide
  exact hbits s.busy s.err

/-- A hazard on a read comes before the fault on an unwritten word (R104). -/
theorem modelStep_rd_hazard {s : State} {r : Reg} {e : Fault} (he : hostRead s r = .error e) (ts : List Turn) :
    modelStep (s.withTurns (rd Config.pBase r :: ts)) = .fault e.reason := by
  simp only [modelStep_rd, he]

/-- A read that no hazard meets, in the spec's model: the flag of its word decides (R37, R99). -/
theorem modelStep_rd_ok {s : State} {r : Reg} {v : Word} (hv : hostRead s r = .ok v) (ts : List Turn) :
    modelStep (s.withTurns (rd Config.pBase r :: ts)) =
      if s.unwritten r = true then .fault .unwrittenRead else .next ((s.receive v).withTurns ts) := by
  simp only [modelStep_rd, hv]

/-- A read of DOUT while BUSY = 1 meets the hazard (R101). -/
theorem hostRead_dout_busy {s : State} (hb : s.busy = true) (w : Fin 4) :
    hostRead s (.dout w) = .error .hazardDoutRead := by
  simp [hostRead, hb]

/-- A read of DOUT with no command in flight delivers the word (R37). -/
theorem hostRead_dout_idle {s : State} (hb : s.busy = false) (w : Fin 4) :
    hostRead s (.dout w) = .ok (getWord s.dout w) := by
  simp [hostRead, hb]

/-- Settles O59: of the reads, only that of DOUT can meet a hazard. -/
theorem hostReadDelivers : Obligations.HostReadDelivers := by
  intro s ts
  refine ⟨fun w => step_rd_key s w ts, fun w => step_rd_din s w ts, fun w => ?_, step_rd_cmd s ts, ?_⟩
  · split
    · next hb => rw [step_rd, hostRead_withTurns, hostRead_dout_busy hb]
    · next hb => exact step_rd_dout (Bool.eq_false_of_not_eq_true hb) w ts
  · rw [step_rd_status, status_eq_append]
    rfl

/-- Settles O9: where no hazard comes first, the flag of the word decides. -/
theorem hostReadReturns : Obligations.HostReadReturns := by
  intro s ts
  refine ⟨fun w => ?_, fun w => ?_, fun w => ?_, modelStep_rd_ok rfl ts, ?_⟩
  · exact (modelStep_rd_ok rfl ts).trans (if_congr (by simp [State.unwritten]) rfl rfl)
  · exact (modelStep_rd_ok rfl ts).trans (if_congr (by simp [State.unwritten]) rfl rfl)
  · split
    · next hb => exact modelStep_rd_hazard (hostRead_dout_busy hb w) ts
    · next hb =>
      have hv := hostRead_dout_idle (Bool.eq_false_of_not_eq_true hb) w
      exact (modelStep_rd_ok hv ts).trans (if_congr (by simp [State.unwritten]) rfl rfl)
  · rw [modelStep_rd_ok (s := s) (r := .status) rfl, status_eq_append]
    rfl

/-! ### Writes -/

/-- A write that meets a hazard faults on the machine (R101). -/
theorem step_wr_hazard {s : State} {r : Reg} {v : Word} {e : Fault} {ts : List Turn}
    (he : hostWrite (s.withTurns ts) r v = .error e) : step (s.withTurns (wr Config.pBase r v :: ts)) = .fault e := by
  rw [step_wr, he]

/-- An answered write listed first does the same whatever turns follow, on the machine. -/
theorem step_wr_ok {s u : State} {r : Reg} {v : Word} (hw : hostWrite s r v = .ok u) (ts : List Turn) :
    step (s.withTurns (wr Config.pBase r v :: ts)) = .next (u.withTurns ts) :=
  (modelStep_next_iff.1 (modelStep_wr_ok hw ts)).2

/-- Settles O10: the new value of a register is `putWord` of the old one. -/
theorem hostWriteDoes : Obligations.HostWriteDoes := by
  intro s ts v
  refine ⟨fun w => ⟨fun hb => ?_, fun hb => ?_⟩, fun w => ⟨fun hb => ?_, fun hb => ?_⟩, fun w => step_wr_ok rfl ts, ?_,
    step_wr_ok rfl ts⟩
  · exact step_wr_hazard (by simp [hostWrite, hb])
  · exact ⟨putWord s.key w v, step_wr_key hb w v ts, getWord_putWord_same s.key w v,
      fun w' hne => getWord_putWord_ne s.key v hne.symm⟩
  · exact step_wr_hazard (by simp [hostWrite, hb])
  · exact ⟨putWord s.din w v, step_wr_din hb w v ts, getWord_putWord_same s.din w v,
      fun w' hne => getWord_putWord_ne s.din v hne.symm⟩
  · cases hb : s.busy with
    | true => exact step_wr_hazard (by simp [hostWrite, hb])
    | false => exact step_wr_cmd hb v ts

/-! ### The four words of a register -/

/-- Writing the four words of `v` over any register leaves `v` (R34). -/
theorem putWord_four_words (q v : BitVec 128) :
    putWord (putWord (putWord (putWord q 0 (getWord v 0)) 1 (getWord v 1)) 2 (getWord v 2)) 3 (getWord v 3) = v := by
  apply eq_of_words
  intro w
  fin_cases w <;> simp [getWord_putWord_ne]

/-- Setting the four flags of a row sets the row (R30). -/
theorem set_four_flags (f : Vector Bool 4) :
    (((f.set (0 : Fin 4) true).set (1 : Fin 4) true).set (2 : Fin 4) true).set (3 : Fin 4) true = allWritten := by
  apply eq_allWritten
  intro w
  fin_cases w <;> simp

/-- With no command in flight a run goes on after a write of a word of KEY (R38). -/
theorem runsTo_wr_key {n : Nat} {s t : State} {w : Fin 4} {v : Word} {ts : List Turn} (hb : s.busy = false)
    (hr : ((s.writeKey w v).withTurns ts).runsTo n t) :
    (s.withTurns (wr Config.pBase (.key w) v :: ts)).runsTo (n + 1) t :=
  runsTo_succ (modelStep_wr_ok (by simp [hostWrite, hb]) ts) hr

/-- With no command in flight a run goes on after a write of a word of DIN (R38). -/
theorem runsTo_wr_din {n : Nat} {s t : State} {w : Fin 4} {v : Word} {ts : List Turn} (hb : s.busy = false)
    (hr : ((s.writeDin w v).withTurns ts).runsTo n t) :
    (s.withTurns (wr Config.pBase (.din w) v :: ts)).runsTo (n + 1) t :=
  runsTo_succ (modelStep_wr_ok (by simp [hostWrite, hb]) ts) hr

/-- The four words of KEY, written one after another (R60). -/
theorem writeKey_four_words (s : State) (v : Key) :
    (((s.writeKey 0 (getWord v 0)).writeKey 1 (getWord v 1)).writeKey 2 (getWord v 2)).writeKey 3 (getWord v 3) =
      { s with key := v, wrKey := allWritten } := by
  simp only [State.writeKey, putWord_four_words, set_four_flags]

/-- The four words of DIN, written one after another (R60). -/
theorem writeDin_four_words (s : State) (v : Block) :
    (((s.writeDin 0 (getWord v 0)).writeDin 1 (getWord v 1)).writeDin 2 (getWord v 2)).writeDin 3 (getWord v 3) =
      { s with din := v, wrDin := allWritten } := by
  simp only [State.writeDin, putWord_four_words, set_four_flags]

/-- With no command in flight `ldkey v` runs to the state with KEY = v: none of its writes sets BUSY (R60). -/
theorem runsTo_ldkey {s : State} (hb : s.busy = false) (v : Key) (ts : List Turn) :
    (s.withTurns (ldkey Config.pBase v ++ ts)).runsTo 4 (State.withTurns { s with key := v, wrKey := allWritten } ts) := by
  rw [← writeKey_four_words s v]
  exact runsTo_wr_key hb (runsTo_wr_key hb (runsTo_wr_key hb (runsTo_wr_key hb (runsTo_zero _))))

/-- With no command in flight `lddin v` runs to the state with DIN = v (R60). -/
theorem runsTo_lddin {s : State} (hb : s.busy = false) (v : Block) (ts : List Turn) :
    (s.withTurns (lddin Config.pBase v ++ ts)).runsTo 4 (State.withTurns { s with din := v, wrDin := allWritten } ts) := by
  rw [← writeDin_four_words s v]
  exact runsTo_wr_din hb (runsTo_wr_din hb (runsTo_wr_din hb (runsTo_wr_din hb (runsTo_zero _))))

/-- Settles O12. -/
theorem fourWordWritesMakeRegister : Obligations.FourWordWritesMakeRegister := fun _ v ts hb =>
  ⟨runsTo_ldkey hb v ts, runsTo_lddin hb v ts⟩

/-! ### Writes of different words commute -/

/-- Replacing different words commutes. -/
theorem putWord_comm (q : BitVec 128) {w w' : Fin 4} (h : w ≠ w') (v v' : Word) :
    putWord (putWord q w v) w' v' = putWord (putWord q w' v') w v := by
  apply eq_of_words
  intro k
  by_cases hw : w = k
  · subst hw
    rw [getWord_putWord_ne _ _ h.symm, getWord_putWord_same, getWord_putWord_same]
  · by_cases hw' : w' = k
    · subst hw'
      rw [getWord_putWord_same, getWord_putWord_ne _ _ h, getWord_putWord_same]
    · rw [getWord_putWord_ne _ _ hw', getWord_putWord_ne _ _ hw, getWord_putWord_ne _ _ hw, getWord_putWord_ne _ _ hw']

/-- Writes of different words of KEY commute. -/
theorem writeKey_comm (s : State) {w w' : Fin 4} (h : w ≠ w') (v v' : Word) :
    (s.writeKey w v).writeKey w' v' = (s.writeKey w' v').writeKey w v := by
  simp only [State.writeKey, putWord_comm s.key h, Vector.set_comm true true (Fin.val_ne_of_ne h)]

/-- Writes of different words of DIN commute. -/
theorem writeDin_comm (s : State) {w w' : Fin 4} (h : w ≠ w') (v v' : Word) :
    (s.writeDin w v).writeDin w' v' = (s.writeDin w' v').writeDin w v := by
  simp only [State.writeDin, putWord_comm s.din h, Vector.set_comm true true (Fin.val_ne_of_ne h)]

/-- Settles O13: words of one register commute as they are different, and KEY and DIN are different fields. -/
theorem operandWritesCommute : Obligations.OperandWritesCommute := by
  rintro s r r' v v' ts hb hne ⟨w, rfl | rfl⟩ ⟨w', rfl | rfl⟩
  · refine ⟨_, runsTo_wr_key hb (runsTo_wr_key hb (runsTo_zero _)), ?_⟩
    rw [writeKey_comm s (fun h => hne (congrArg _ h))]
    exact runsTo_wr_key hb (runsTo_wr_key hb (runsTo_zero _))
  · exact ⟨((s.writeKey w v).writeDin w' v').withTurns ts, runsTo_wr_key hb (runsTo_wr_din hb (runsTo_zero _)),
      runsTo_wr_din hb (runsTo_wr_key hb (runsTo_zero _))⟩
  · exact ⟨((s.writeDin w v).writeKey w' v').withTurns ts, runsTo_wr_din hb (runsTo_wr_key hb (runsTo_zero _)),
      runsTo_wr_key hb (runsTo_wr_din hb (runsTo_zero _))⟩
  · refine ⟨_, runsTo_wr_din hb (runsTo_wr_din hb (runsTo_zero _)), ?_⟩
    rw [writeDin_comm s (fun h => hne (congrArg _ h))]
    exact runsTo_wr_din hb (runsTo_wr_din hb (runsTo_zero _))

/-! ### Turns -/

/-- Settles O50: every effect of a step removes its turn, and `read` alone delivers a value. -/
theorem stepTakesOneTurn : Obligations.StepTakesOneTurn := by
  intro s t h
  cases stepEffect_of_step h with
  | read r v turn => exact ⟨rfl, .inr ⟨r, v, turn, rfl⟩⟩
  | idle | illegal | legal | reset | writeKey | writeDin | issue | ignored => exact ⟨rfl, .inl rfl⟩

end Sys2Proof.Machine
end

section
/-! PROOFS. Command words (spec/30_encoding.md): a word is its five fields, each command has its own well-formed fields, and so
the decoder, the encoder, the opcode map and the assembler are about the same words. -/

namespace Sys2Proof

/-! ### The fields of a word -/

/-- A word is its five fields side by side (R49). -/
theorem append_fieldsOf (c : Word) :
    (fieldsOf c).res2 ++ (fieldsOf c).ridx ++ (fieldsOf c).res1 ++ (fieldsOf c).tsel ++ (fieldsOf c).opc = c := by
  apply BitVec.eq_of_getLsbD_eq
  intro i hi
  simp only [fieldsOf, BitVec.getLsbD_append, BitVec.getLsbD_extractLsb']
  grind

/-- No bit of a word stands outside its fields (R49). -/
theorem fieldsOf_injective : Function.Injective fieldsOf := by
  intro c d h
  rw [← append_fieldsOf c, h, append_fieldsOf]

/-- A mask works on each field by itself. -/
theorem fieldsOf_and (c m : Word) :
    fieldsOf (c &&& m) =
      { res2 := (fieldsOf c).res2 &&& (fieldsOf m).res2, ridx := (fieldsOf c).ridx &&& (fieldsOf m).ridx
        res1 := (fieldsOf c).res1 &&& (fieldsOf m).res1, tsel := (fieldsOf c).tsel &&& (fieldsOf m).tsel
        opc := (fieldsOf c).opc &&& (fieldsOf m).opc } := by
  simp only [fieldsOf, BitVec.extractLsb'_and]

/-- The fields of a command: its opcode and its operand, with every other field 0 (R54). -/
def Instr.fields : Instr → CmdFields
  | .tlu t => { res2 := 0, ridx := 0, res1 := 0, tsel := t, opc := 0x01 }
  | .g => { res2 := 0, ridx := 0, res1 := 0, tsel := 0, opc := 0x02 }
  | .ks i => { res2 := 0, ridx := i, res1 := 0, tsel := 0, opc := 0x03 }
  | .f => { res2 := 0, ridx := 0, res1 := 0, tsel := 0, opc := 0x04 }
  | .dec => { res2 := 0, ridx := 0, res1 := 0, tsel := 0, opc := 0x05 }

/-- The encoder puts each field of the command in its place (R58). -/
@[simp] theorem fieldsOf_encode (i : Instr) : fieldsOf (encode i) = i.fields := by
  cases i with
  | tlu t => revert t; decide
  | ks i => revert i; decide
  | g | f | dec => decide

theorem fields_wellFormed (i : Instr) : i.fields.wellFormed = true := by
  cases i <;> simp [Instr.fields, CmdFields.wellFormed, CmdFields.opcAssigned, CmdFields.reservedClear,
    CmdFields.tselAllowed, CmdFields.ridxAllowed]

@[simp] theorem instrOf_fields (i : Instr) : instrOf i.fields = i := by
  cases i <;> rfl

/-- Well-formed fields are those of the command they select: the checks of R56 leave the operand's field alone free. -/
theorem fields_instrOf {f : CmdFields} (h : f.wellFormed = true) : (instrOf f).fields = f := by
  obtain ⟨res2, ridx, res1, tsel, opc⟩ := f
  simp only [CmdFields.wellFormed, CmdFields.opcAssigned, CmdFields.reservedClear, CmdFields.tselAllowed,
    CmdFields.ridxAllowed, Bool.and_eq_true, Bool.or_eq_true, beq_iff_eq] at h
  obtain ⟨⟨⟨hopc, rfl, rfl⟩, ht⟩, hr⟩ := h
  rcases hopc with (((rfl | rfl) | rfl) | rfl) | rfl <;> simp_all [instrOf, Instr.fields]

/-! ### The decoder -/

/-- The decoder accepts the words whose fields are well formed (R56). -/
theorem decode_eq_ok_iff_wellFormed {c : Word} {i : Instr} :
    decode c = .ok i ↔ (fieldsOf c).wellFormed = true ∧ instrOf (fieldsOf c) = i := by
  have hzero : (fieldsOf c).opc = 0x00 → (fieldsOf c).opcAssigned = false := fun h => by simp [CmdFields.opcAssigned, h]
  simp only [decode, CmdFields.wellFormed]
  split_ifs <;> simp_all

/-- A word decodes to the command whose fields it has. -/
theorem decode_eq_ok_iff_fields {c : Word} {i : Instr} : decode c = .ok i ↔ fieldsOf c = i.fields := by
  rw [decode_eq_ok_iff_wellFormed]
  constructor
  · rintro ⟨hw, rfl⟩
    exact (fields_instrOf hw).symm
  · intro h
    rw [h]
    exact ⟨fields_wellFormed i, instrOf_fields i⟩

/-- Settles O1. -/
theorem encodeThenDecode : Obligations.EncodeThenDecode := fun i => decode_eq_ok_iff_fields.2 (fieldsOf_encode i)

/-- Settles O2: the word and the encoder's word have the same five fields. -/
theorem decodeThenEncode : Obligations.DecodeThenEncode := fun _ _ h =>
  fieldsOf_injective ((fieldsOf_encode _).trans (decode_eq_ok_iff_fields.1 h).symm)

/-! ### The opcode map -/

/-- The command of `i`'s row with the operand that stands in the fields `f` (R51, R52). -/
def Instr.withOperandOf (f : CmdFields) : Instr → Instr
  | .tlu _ => .tlu f.tsel
  | .g => .g
  | .ks _ => .ks f.ridx
  | .f => .f
  | .dec => .dec

@[simp] theorem withOperandOf_fields (i : Instr) : i.withOperandOf i.fields = i := by
  cases i <;> rfl

/-- The fields that the mask of a row looks at: every one but the operand's (R54). -/
def Instr.maskFields : Instr → CmdFields
  | .tlu _ => { res2 := .allOnes 12, ridx := .allOnes 4, res1 := .allOnes 6, tsel := 0#2, opc := .allOnes 8 }
  | .ks _ => { res2 := .allOnes 12, ridx := 0#4, res1 := .allOnes 6, tsel := .allOnes 2, opc := .allOnes 8 }
  | .g | .f | .dec =>
    { res2 := .allOnes 12, ridx := .allOnes 4, res1 := .allOnes 6, tsel := .allOnes 2, opc := .allOnes 8 }

/-- The match of a row is the row's command with operand 0, and its mask leaves out the operand. -/
theorem fieldsOf_rowOf (i : Instr) :
    fieldsOf (rowOf i).1 = (i.withOperandOf (fieldsOf 0)).fields ∧ fieldsOf (rowOf i).2 = i.maskFields := by
  cases i with
  | tlu t => revert t; decide
  | ks i => revert i; decide
  | g | f | dec => decide

/-- A word selects a row when it has the fields of the row's command, with whatever operand stands in it (R54). -/
theorem selectsRow_iff_fields {c : Word} {i : Instr} :
    selectsRow c i = true ↔ fieldsOf c = (i.withOperandOf (fieldsOf c)).fields := by
  obtain ⟨hmatch, hmask⟩ := fieldsOf_rowOf i
  have hzero : fieldsOf 0 = ⟨0, 0, 0, 0, 0⟩ := rfl
  rw [selectsRow, beq_iff_eq, ← fieldsOf_injective.eq_iff, fieldsOf_and, hmatch, hmask, hzero]
  obtain ⟨res2, ridx, res1, tsel, opc⟩ := fieldsOf c
  cases i with
  | tlu | g | ks | f | dec =>
    simp only [Instr.withOperandOf, Instr.maskFields, Instr.fields, BitVec.ofNat_eq_ofNat, BitVec.and_allOnes,
      BitVec.and_zero, CmdFields.mk.injEq]

/-- The decoder reads a command from the words that select its row and hold its operand (R54). -/
theorem decode_eq_ok_iff_selectsRow {c : Word} {i : Instr} :
    decode c = .ok i ↔ selectsRow c i = true ∧ i.withOperandOf (fieldsOf c) = i := by
  rw [decode_eq_ok_iff_fields, selectsRow_iff_fields]
  constructor
  · intro h
    rw [h, withOperandOf_fields]
    exact ⟨rfl, rfl⟩
  · rintro ⟨hsel, hop⟩
    rwa [hop] at hsel

/-- Settles O3: `selectsRow` and the operand field, row by row. -/
theorem decodeSelectsOpcodeMapRow : Obligations.DecodeSelectsOpcodeMapRow := by
  intro c i
  rw [decode_eq_ok_iff_selectsRow]
  cases i <;> simp [selectsRow, rowOf, Instr.withOperandOf, fieldsOf]

/-! ### Illegal words -/

/-- A word is illegal when it decodes to no command. -/
theorem decode_error_iff {c : Word} : (∃ e, decode c = .error e) ↔ ∀ i, decode c ≠ .ok i := by
  cases h : decode c <;> simp

/-- A word that selects a row decodes, to the row's command with the operand that stands in the word (R54). -/
theorem decode_of_selectsRow {c : Word} {i : Instr} (h : selectsRow c i = true) :
    decode c = .ok (i.withOperandOf (fieldsOf c)) :=
  decode_eq_ok_iff_fields.2 (selectsRow_iff_fields.1 h)

theorem decode_error_iff_selectsRow {c : Word} : (∃ e, decode c = .error e) ↔ ∀ i, selectsRow c i = false := by
  rw [decode_error_iff]
  constructor
  · intro h i
    by_contra hsel
    exact h _ (decode_of_selectsRow (Bool.eq_true_of_not_eq_false hsel))
  · intro h i hd
    exact Bool.false_ne_true ((h i).symm.trans (decode_eq_ok_iff_selectsRow.1 hd).1)

/-- The opcodes that R54 lists are those that the first two bullets of R56 leave. -/
theorem opcAssigned_eq_false_iff {f : CmdFields} : f.opcAssigned = false ↔ f.opc = 0x00#8 ∨ 0x06#8 ≤ f.opc := by
  simp only [CmdFields.opcAssigned, Bool.or_eq_false_iff, beq_eq_false_iff_ne, ne_eq]
  bv_omega

/-- The fields are not well formed when a bullet of R56 holds. -/
theorem wellFormed_eq_false_iff {f : CmdFields} :
    f.wellFormed = false ↔
      f.opc = 0x00#8 ∨ 0x06#8 ≤ f.opc ∨ f.res1 ≠ 0#6 ∨ f.res2 ≠ 0#12 ∨ (f.tsel ≠ 0#2 ∧ f.opc ≠ 0x01#8) ∨
        (f.ridx ≠ 0#4 ∧ f.opc ≠ 0x03#8) := by
  simp only [CmdFields.wellFormed, Bool.and_eq_false_iff, opcAssigned_eq_false_iff, CmdFields.reservedClear,
    CmdFields.tselAllowed, CmdFields.ridxAllowed, Bool.or_eq_false_iff, beq_eq_false_iff_ne, or_assoc,
    BitVec.ofNat_eq_ofNat]

/-- A word is illegal when its fields are not well formed. -/
theorem decode_error_iff_wellFormed {c : Word} : (∃ e, decode c = .error e) ↔ (fieldsOf c).wellFormed = false := by
  simp [decode_error_iff, decode_eq_ok_iff_wellFormed]

/-- Settles O4. -/
theorem illegalWordsExactly : Obligations.IllegalWordsExactly := fun _ =>
  ⟨decode_error_iff_selectsRow, decode_error_iff_wellFormed.trans wellFormed_eq_false_iff⟩

/-- Settles O5: the legal words are the encoder's, and each illegal word meets one bullet of R56. -/
theorem sampleWordsDecode : Obligations.SampleWordsDecode :=
  ⟨encodeThenDecode (.tlu 0), encodeThenDecode (.tlu 3), encodeThenDecode .g, encodeThenDecode (.ks 15),
    encodeThenDecode .f, encodeThenDecode .dec, by decide, by decide⟩

/-! ### The assembler -/

/-- A table number keeps its value in the command word (R58). -/
theorem encode_tlu_ofNat {t : Nat} (h : t ≤ 3) :
    encode (.tlu (BitVec.ofNat 2 t)) = 0x00000001#32 ||| (BitVec.ofNat 32 t <<< 8) := by
  rw [encode, BitVec.setWidth_ofNat_of_le_of_lt (by omega) (by omega)]

/-- A round index keeps its value in the command word (R58). -/
theorem encode_ks_ofNat {i : Nat} (h : i ≤ 15) :
    encode (.ks (BitVec.ofNat 4 i)) = 0x00000003#32 ||| (BitVec.ofNat 32 i <<< 16) := by
  rw [encode, BitVec.setWidth_ofNat_of_le_of_lt (by omega) (by omega)]

/-- A line other than `.cmd` assembles to the word of a command (R58). -/
theorem assemble_eq_encode {a : AsmLine} {c : Word} (h : assemble a = some c) (hm : a.mnemonic ≠ .rawCmd) :
    ∃ i, c = encode i := by
  unfold assemble at h
  split at h
  · cases h
  · split at h <;> cases h
    · exact ⟨_, rfl⟩
    · exact ⟨_, rfl⟩
    · exact ⟨_, rfl⟩
    · exact ⟨_, rfl⟩
    · exact ⟨_, rfl⟩
    · contradiction

/-- Settles O6. -/
theorem assemblerWords : Obligations.AssemblerWords := by
  refine ⟨fun t => ?_, fun i => ?_, rfl, rfl, rfl, fun n ns => ⟨rfl, rfl, rfl⟩, fun w => ?_, fun a c ha hm => ?_⟩
  · split
    · next h => simp [assemble, AsmLine.wellFormed, h, encode_tlu_ofNat h]
    · next h => simp [assemble, AsmLine.wellFormed, h]
  · split
    · next h => simp [assemble, AsmLine.wellFormed, h, encode_ks_ofNat h]
    · next h => simp [assemble, AsmLine.wellFormed, h]
  · simp [assemble, AsmLine.wellFormed, w.isLt]
  · obtain ⟨i, rfl⟩ := assemble_eq_encode ha hm
    exact ⟨i, encodeThenDecode i⟩

end Sys2Proof
end

section
/-! PROOFS. The pseudo-instruction `decrypt` (spec/30_encoding.md R60, spec/70_reset_and_hazards.md R117): each part of it as one
run, on the machine and in the spec's model, and the whole as the parts one after another. -/

namespace Sys2Proof.Machine

open Sys2Proof

/-- The state in which the host has received the values `vs` too. -/
def State.receiveAll (s : State) (vs : List Word) : State :=
  { s with received := s.received ++ vs }

@[simp] theorem State.receiveAll_nil (s : State) : s.receiveAll [] = s := by
  simp [State.receiveAll]

/-- The values come one read at a time (R37). -/
theorem State.receive_receiveAll (s : State) (v : Word) (vs : List Word) :
    (s.receive v).receiveAll vs = s.receiveAll (v :: vs) := by
  simp [State.receiveAll, State.receive]

theorem State.receiveAll_receive (s : State) (vs : List Word) (v : Word) :
    (s.receiveAll vs).receive v = s.receiveAll (vs ++ [v]) := by
  simp [State.receiveAll, State.receive]

/-- What the host has received is no operand of a command (R100). -/
@[simp] theorem resultOf_receiveAll (i : Instr) (s : State) (vs : List Word) :
    resultOf i (s.receiveAll vs) = resultOf i s := by
  cases i <;> rfl

/-- A completion leaves what the host has received (R119). -/
theorem State.commit_receiveAll (s : State) (vs : List Word) (result : Block) :
    (s.receiveAll vs).commit result = (s.commit result).receiveAll vs := rfl

/-- With no command in flight a run goes on after a write of CMD (R118). -/
theorem runsTo_wr_cmd {n : Nat} {s t : State} {v : Word} {ts : List Turn} (hb : s.busy = false)
    (hr : ((s.issue v).withTurns ts).runsTo n t) : (s.withTurns (wr Config.pBase .cmd v :: ts)).runsTo (n + 1) t :=
  runsTo_succ (modelStep_wr_ok (by simp [hostWrite, hb]) ts) hr

/-- A run goes on after a read of STATUS (R37). -/
theorem runsTo_rd_status {n : Nat} {s t : State} {ts : List Turn} (hr : ((s.receive s.status).withTurns ts).runsTo n t) :
    (s.withTurns (rd Config.pBase .status :: ts)).runsTo (n + 1) t :=
  runsTo_succ (modelStep_rd_written (r := .status) rfl rfl ts) hr

/-- A run goes on after a read of a word of DOUT that is written, with no command in flight (R37). -/
theorem runsTo_rd_dout {n : Nat} {s t : State} {w : Fin 4} {ts : List Turn} (hb : s.busy = false)
    (hw : s.wrDout = allWritten) (hr : ((s.receive (getWord s.dout w)).withTurns ts).runsTo n t) :
    (s.withTurns (rd Config.pBase (.dout w) :: ts)).runsTo (n + 1) t :=
  runsTo_succ (modelStep_rd_written (hostRead_dout_idle hb w) (by simp [State.unwritten, hw]) ts) hr

/-- A run goes on after the completion of a legal command whose operand words are written (R119). -/
theorem runsTo_core_legal {n : Nat} {s t : State} {i : Instr} {ts : List Turn} (hb : s.busy = true)
    (hd : decode s.cmd = .ok i) (hw : s.operandsWritten i = true)
    (hr : ((s.commit (resultOf i s)).withTurns ts).runsTo n t) : (s.withTurns (.core :: ts)).runsTo (n + 1) t :=
  runsTo_succ ((modelStep_core_legal hb hd ts).trans (if_pos hw)) hr

/-- `n` polls deliver STATUS `n` times and change nothing of the core (R120). -/
theorem runsTo_polls (n : Nat) (s : State) (ts : List Turn) :
    (s.withTurns (polls Config.pBase n ++ ts)).runsTo n ((s.receiveAll (List.replicate n s.status)).withTurns ts) := by
  induction n generalizing s with
  | zero => simpa [polls] using runsTo_zero (s.withTurns ts)
  | succ n ih =>
    have hrest := ih (s.receive s.status)
    rw [State.receive_receiveAll] at hrest
    exact runsTo_rd_status hrest

/-- `wait` with a legal command in flight whose operand words are written: `n` polls see BUSY = 1, the command completes, and one
more poll reads 0 (R60, R119, R120). -/
theorem runsTo_waitTurns {s : State} {i : Instr} (n : Nat) (hb : s.busy = true) (hd : decode s.cmd = .ok i)
    (hw : s.operandsWritten i = true) (ts : List Turn) :
    (s.withTurns (waitTurns Config.pBase n ++ ts)).runsTo (n + 2)
      (((s.commit (resultOf i s)).receiveAll (List.replicate n s.status ++ [0x00000000#32])).withTurns ts) := by
  have hpolls := runsTo_polls n s (.core :: rd Config.pBase .status :: ts)
  have hdone : ((s.receiveAll (List.replicate n s.status)).withTurns (.core :: rd Config.pBase .status :: ts)).runsTo 2
      ((((s.receiveAll (List.replicate n s.status)).commit (resultOf i s)).receive (statusWord false false)).withTurns ts) := by
    rw [← resultOf_receiveAll i s (List.replicate n s.status)]
    exact runsTo_core_legal hb hd hw (runsTo_rd_status (runsTo_zero _))
  rw [State.commit_receiveAll, State.receiveAll_receive, statusWord_clear] at hdone
  rw [waitTurns, List.append_assoc]
  exact runsTo_add hpolls hdone

/-- The four words of DOUT, read one after another (R60). -/
theorem runsTo_rdout {s : State} (hb : s.busy = false) (hw : s.wrDout = allWritten) (ts : List Turn) :
    (s.withTurns (rdout Config.pBase ++ ts)).runsTo 4
      ((s.receiveAll [getWord s.dout 0, getWord s.dout 1, getWord s.dout 2, getWord s.dout 3]).withTurns ts) := by
  simp only [← State.receive_receiveAll, State.receiveAll_nil]
  exact runsTo_rd_dout hb hw (runsTo_rd_dout hb hw (runsTo_rd_dout hb hw (runsTo_rd_dout hb hw (runsTo_zero _))))

/-- The operand registers loaded: KEY = key and DIN = ct, every word of them written (R117). -/
def State.loaded (s : State) (ct : Block) (key : Key) : State :=
  { s with key := key, wrKey := allWritten, din := ct, wrDin := allWritten }

/-- The eight words that `ldkey` and `lddin` write are DEC's operand words (R100). -/
theorem operandsWritten_loaded (s : State) (ct : Block) (key : Key) : (s.loaded ct key).operandsWritten .dec = true := by
  simp [State.loaded, State.operandsWritten, operandWords, keyWords, dinWords, State.written]

/-- `ldkey key` and then `lddin ct` (R60). -/
theorem runsTo_load {s : State} (hb : s.busy = false) (ct : Block) (key : Key) (ts : List Turn) :
    (s.withTurns (ldkey Config.pBase key ++ (lddin Config.pBase ct ++ ts))).runsTo 8 ((s.loaded ct key).withTurns ts) :=
  runsTo_add (runsTo_ldkey hb key _) (runsTo_lddin (s := { s with key := key, wrKey := allWritten }) hb ct ts)

/-- The core with DEC issued on the loaded registers (R118). -/
def State.decIssued (s : State) (ct : Block) (key : Key) : State :=
  (s.loaded ct key).issue (encode .dec)

/-- The state that `decrypt` leaves: the transform in DOUT, and what the polls and `rdout` delivered (R60). -/
def State.decryptDone (s : State) (ct : Block) (key : Key) (n : Nat) : State :=
  let plain := decrypt s.rom ct key
  (((s.decIssued ct key).commit plain).receiveAll
    (List.replicate n (s.decIssued ct key).status ++ [0x00000000#32])).receiveAll
      [getWord plain 0, getWord plain 1, getWord plain 2, getWord plain 3]

/-- The parts of `decrypt` one after another: `ldkey` and `lddin`, the write of CMD, `wait`, and `rdout` (R60). -/
theorem runsTo_decryptTurns {s : State} (hb : s.busy = false) (ct : Block) (key : Key) (n : Nat) (ts : List Turn) :
    (s.withTurns (decryptTurns Config.pBase ct key n ++ ts)).runsTo (n + 15) ((s.decryptDone ct key n).withTurns ts) := by
  have hwait := runsTo_waitTurns (s := s.decIssued ct key) n rfl (encodeThenDecode .dec) (operandsWritten_loaded s ct key)
    (rdout Config.pBase ++ ts)
  have hrun := runsTo_wr_cmd (s := s.loaded ct key) hb (runsTo_add hwait (runsTo_rdout rfl rfl ts))
  have hsteps : 8 + (n + 2 + 4 + 1) = n + 15 := by omega
  rw [← hsteps]
  simp only [decryptTurns, runTurns, cmdTurn, List.append_assoc, List.cons_append]
  exact runsTo_add (runsTo_load hb ct key _) hrun

/-- Settles O52: the host's last four words are those of DOUT, and each poll before the completion reads BUSY over the old ERR. -/
theorem decryptProgramReturnsPlaintext : Obligations.DecryptProgramReturnsPlaintext := by
  intro s ct key n ts hb
  refine ⟨_, runsTo_decryptTurns hb ct key n ts, rfl, rfl, rfl, rfl, statusWord_clear, rfl, rfl, _, _, _, _,
    append_words (decrypt s.rom ct key), ?_⟩
  have hstatus : (s.decIssued ct key).status = 0#30 ++ (BitVec.ofBool s.err ++ 1#1) := status_eq_append _
  have hreceived : (s.decIssued ct key).received = s.received := rfl
  simp [State.decryptDone, State.receiveAll, hstatus, hreceived]

end Sys2Proof.Machine
end

section
/-! PROOFS. The completion of a legal command as a record edit (spec/70_reset_and_hazards.md R119), and TLU's
(spec/40_substitution.md R65). -/

namespace Sys2Proof.Machine

open Sys2Proof

/-- A legal command writes its result, the flags of DOUT and STATUS, and no other field (R119). -/
theorem exec_next_of_resultOf {i : Instr} {s : State} {d : Block} (h : resultOf i s = d) :
    exec i s = .next { s with dout := d, wrDout := Vector.replicate 4 true, err := false, busy := false } := by
  rw [exec_eq, h]
  rfl

/-- Settles O14: TLU's result is the entry that `DIN[7:0]` selects, under 96 zero bits. -/
theorem tluCompletes : Obligations.TluCompletes := by
  intro t s
  have hresult : resultOf (.tlu t) s = 0#96 ++ s.rom.T t (s.din.extractLsb' 0 8) := resultWord_eq (s.rom.T t s.opIndex)
  exact exec_next_of_resultOf hresult

end Sys2Proof.Machine
end

section
/-! PROOFS. The confusion function G (spec/41_confusion.md): its four laws (R68), and the G command (R69). -/

namespace Sys2Proof.Machine

open Sys2Proof

/-- The exclusive or of the entries of table k that byte k of x and byte k of y select, byte 0 the most significant (R66). -/
def lookupDiff (r : Rom) (x y : Word) (k : Fin 4) : Word :=
  r.T (BitVec.ofNat 2 k.val) (x.extractLsb' (24 - 8 * k.val) 8) ^^^
    r.T (BitVec.ofNat 2 k.val) (y.extractLsb' (24 - 8 * k.val) 8)

theorem confusion_xor_confusion (r : Rom) (x y : Word) :
    confusion r x ^^^ confusion r y =
      lookupDiff r x y 0 ^^^ lookupDiff r x y 1 ^^^ lookupDiff r x y 2 ^^^ lookupDiff r x y 3 := by
  simp only [confusion_eq, lookupDiff]
  ac_rfl

theorem lookupDiff_eq_zero {r : Rom} {x y : Word} {k : Fin 4}
    (h : x.extractLsb' (24 - 8 * k.val) 8 = y.extractLsb' (24 - 8 * k.val) 8) : lookupDiff r x y k = 0#32 := by
  rw [lookupDiff, h, BitVec.xor_self]

/-- Two arguments that differ in byte k alone: the lookups in the other three tables cancel (R68). -/
theorem confusion_xor_of_bytes_eq {r : Rom} {x y : Word} {k : Fin 4}
    (h : ∀ j : Fin 4, j ≠ k → x.extractLsb' (24 - 8 * j.val) 8 = y.extractLsb' (24 - 8 * j.val) 8) :
    confusion r x ^^^ confusion r y = lookupDiff r x y k := by
  have hzero : ∀ j : Fin 4, j ≠ k → lookupDiff r x y j = 0#32 := fun j hj => lookupDiff_eq_zero (h j hj)
  rw [confusion_xor_confusion]
  fin_cases k <;> simp [hzero]

theorem confusion_of_zero_tables {r : Rom} (h : ∀ t i, r.T t i = 0) (x : Word) : confusion r x = 0 := by
  simp [confusion_eq, h]

/-- A word is its four bytes, each shifted back to its place. -/
theorem xor_shifted_bytes (x : Word) :
    (x.extractLsb' 24 8).setWidth 32 <<< 24 ^^^ (x.extractLsb' 16 8).setWidth 32 <<< 16 ^^^
      (x.extractLsb' 8 8).setWidth 32 <<< 8 ^^^ (x.extractLsb' 0 8).setWidth 32 <<< 0 = x := by
  apply BitVec.eq_of_getLsbD_eq
  intro i hi
  simp only [BitVec.getLsbD_xor, BitVec.getLsbD_shiftLeft, BitVec.getLsbD_setWidth, BitVec.getLsbD_extractLsb']
  grind

theorem confusion_of_identity_tables {r : Rom} (h : ∀ t i, r.T t i = i.setWidth 32 <<< (24 - 8 * t.toNat)) (x : Word) :
    confusion r x = x := by
  rw [confusion_eq, h, h, h, h]
  exact xor_shifted_bytes x

/-- Settles O23: G is four lookups, one for each byte. -/
theorem confusionLaws : Obligations.ConfusionLaws := fun r =>
  ⟨confusion_eq r 0, fun _ _ _ h => confusion_xor_of_bytes_eq h, confusion_of_zero_tables, confusion_of_identity_tables⟩

/-- The bytes of G's operand, counted in DIN (R69). -/
theorem State.opWord_byte (s : State) {b : Nat} (hb : b + 8 ≤ 32) :
    s.opWord.extractLsb' b 8 = s.din.extractLsb' b 8 := by
  rw [State.opWord, BitVec.extractLsb'_extractLsb'_of_le hb]

/-- Settles O15: G's result is the exclusive or of four entries, under 96 zero bits. -/
theorem confusionCompletes : Obligations.ConfusionCompletes := by
  intro s
  have hresult : resultOf .g s = 0#96 ++ confusion s.rom s.opWord := resultWord_eq _
  apply exec_next_of_resultOf
  rw [hresult]
  simp only [confusion_eq, State.opWord_byte, Nat.reduceAdd, Nat.reduceLeDiff]

end Sys2Proof.Machine
end

section
/-! PROOFS. The key schedule K (spec/42_key_schedule.md): its two exact sums and their hardware datapath (R72 to R75), that it
keeps no state (R77), and the KS command (R78). -/

namespace Sys2Proof.Machine

open Sys2Proof

/-! ### The exact sums and the datapath -/

/-- The range of gx0 (R74). -/
theorem gx0_range (key : Key) (c : Word) : -(2 ^ 32 - 1) ≤ gx0 key c ∧ gx0 key c ≤ 2 ^ 33 - 2 := by
  simp only [gx0]
  omega

/-- The range of gx1 (R74). -/
theorem gx1_range (key : Key) (c : Word) : -(2 ^ 32 - 1) ≤ gx1 key c ∧ gx1 key c ≤ 2 ^ 33 - 2 := by
  simp only [gx1]
  omega

/-- A 34-bit two's-complement number holds every value of that range (R74). -/
theorem toInt_ofInt_34 {v : Int} (h : -(2 ^ 32 - 1) ≤ v ∧ v ≤ 2 ^ 33 - 2) : (BitVec.ofInt 34 v).toInt = v :=
  BitVec.toInt_ofInt_eq_self (by decide) (by omega) (by omega)

/-- The sum of two words fits in 33 bits, so the datapath's adder drops no carry. -/
theorem toNat_add_setWidth_33 (x y : Word) : (x.setWidth 33 + y.setWidth 33).toNat = x.toNat + y.toNat := by
  simp only [BitVec.toNat_add, BitVec.toNat_setWidth]
  omega

/-- The datapath's comparison and choice of a difference compute an absolute value, modulo 2^32 (R74). -/
theorem compare_subtract_eq_absMod32 (s z : BitVec 33) :
    (if z ≤ s then (s - z).setWidth 32 else (z - s).setWidth 32) = absMod32 (s.toNat - z.toNat) := by
  apply BitVec.eq_of_toNat_eq
  split
  · next hle =>
    have habs : ((s.toNat : Int) - z.toNat).natAbs = s.toNat - z.toNat := by
      have := BitVec.le_def.1 hle
      omega
    simp only [absMod32, habs, BitVec.toNat_setWidth, BitVec.toNat_ofNat, BitVec.toNat_sub_of_le hle]
  · next hle =>
    have hge : s ≤ z := BitVec.le_of_lt (BitVec.not_le.1 hle)
    have habs : ((s.toNat : Int) - z.toNat).natAbs = z.toNat - s.toNat := by
      have := BitVec.le_def.1 hge
      omega
    simp only [absMod32, habs, BitVec.toNat_setWidth, BitVec.toNat_ofNat, BitVec.toNat_sub_of_le hge]

/-- Two words added and a third taken away, as the datapath does it (R74). -/
theorem compare_subtract_words (x y z : Word) :
    (if z.setWidth 33 ≤ x.setWidth 33 + y.setWidth 33 then (x.setWidth 33 + y.setWidth 33 - z.setWidth 33).setWidth 32
      else (z.setWidth 33 - (x.setWidth 33 + y.setWidth 33)).setWidth 32) = absMod32 (x.toNat + y.toNat - z.toNat) := by
  rw [compare_subtract_eq_absMod32, toNat_add_setWidth_33, BitVec.toNat_setWidth_of_le (by decide), Nat.cast_add]

theorem datapathArg0_eq (key : Key) (c : Word) : datapathArg0 key c = absMod32 (gx0 key c) :=
  compare_subtract_words ..

/-- The datapath adds c before it takes key3 away, where R73 subtracts first. -/
theorem datapathArg1_eq (key : Key) (c : Word) : datapathArg1 key c = absMod32 (gx1 key c) := by
  rw [gx1, sub_add_eq_add_sub]
  exact compare_subtract_words ..

/-- Below 2^32 the reduction changes nothing, since no sum is under -(2^32 - 1) (R74). -/
theorem absMod32_toNat_of_lt {v : Int} (h : -(2 ^ 32 - 1) ≤ v ∧ v ≤ 2 ^ 33 - 2) (hlt : v < 2 ^ 32) :
    ((absMod32 v).toNat : Int) = |v| :=
  absMod32_toNat (abs_lt.2 ⟨by omega, hlt⟩)

/-- Settles O24, from the range of the two sums and the equations of the two datapath arguments. -/
theorem keyScheduleDatapathAgrees : Obligations.KeyScheduleDatapathAgrees := fun key c =>
  have h0 := gx0_range key c
  have h1 := gx1_range key c
  ⟨h0, h1, toInt_ofInt_34 h0, toInt_ofInt_34 h1, datapathArg0_eq key c, datapathArg1_eq key c,
    absMod32_toNat_of_lt h0, absMod32_toNat_of_lt h1⟩

/-! ### A negative sum -/

/-- A negative sum of the range gives its magnitude (R75). -/
theorem absMod32_toNat_of_neg {v : Int} (h : -(2 ^ 32 - 1) ≤ v ∧ v ≤ 2 ^ 33 - 2) (hneg : v < 0) :
    ((absMod32 v).toNat : Int) = -v := by
  rw [absMod32_toNat_of_lt h (by omega), abs_of_neg hneg]

/-- Settles O25. -/
theorem negativeSumGivesMagnitude : Obligations.NegativeSumGivesMagnitude := by
  refine ⟨fun key c => absMod32_toNat_of_neg (gx0_range key c), fun key c => absMod32_toNat_of_neg (gx1_range key c), ?_⟩
  intro key h1 h3
  have hkey1 : getWord key 1 = 0#32 := h1
  have hkey3 : getWord key 3 = 0xFFFFFFFF#32 := h3
  have hgx1 : gx1 key 0x3C6EF373#32 = -0xC3910C8C := by rw [gx1, hkey1, hkey3]; decide
  rw [hgx1]
  exact ⟨rfl, by decide, by decide⟩

/-! ### The KS command -/

/-- Settles O16: KS's result is K's pair over 64 zero bits. -/
theorem keyScheduleCompletes : Obligations.KeyScheduleCompletes := by
  intro i s c key0 key1 key2 key3
  apply exec_next_of_resultOf
  have hresult : resultOf (.ks i) s = resultPair (keySchedule s.rom s.key i) := rfl
  rw [hresult, keySchedule_eq, absMod32_eq, absMod32_eq]
  rfl

/-! ### K keeps no state -/

/-- Commands completed one after another each commit their result. -/
theorem execAll_cons (j : Instr) (js : List Instr) (s : State) :
    execAll (j :: js) s = execAll js (s.commit (resultOf j s)) := by
  simp only [execAll, exec_eq]

/-- No list of legal commands changes an operand register or a ROM (R19, R20, R41). -/
theorem execAll_keeps_operands {js : List Instr} {s t : State} (h : execAll js s = .next t) :
    t.key = s.key ∧ t.din = s.din ∧ t.rom = s.rom := by
  induction js generalizing s with
  | nil =>
    cases h
    exact ⟨rfl, rfl, rfl⟩
  | cons j js ih =>
    rw [execAll_cons] at h
    simpa using ih h

/-- Settles O22: the operands and the ROMs are what they were, and the result depends on nothing else. -/
theorem keyScheduleIsStateless : Obligations.KeyScheduleIsStateless := by
  intro i js s s1 s2 s3 h1 hjs h3
  have hall : execAll (.ks i :: js) s = .next s2 := by simp only [execAll, h1, hjs]
  obtain ⟨hkey, hdin, hrom⟩ := execAll_keeps_operands hall
  exact resultDependsOnlyOnOperands (.ks i) s2 s s3 s1 hrom (fun w _ => by rw [hkey]) (fun w _ => by rw [hdin]) h3 h1

end Sys2Proof.Machine
end

section
/-! PROOFS. The round function F (spec/43_round_function.md): its named values with three evaluations of G (R80, R82), the two
halves of its result (R81), and the F command (R85). -/

namespace Sys2Proof.Machine

open Sys2Proof

/-! ### The named values -/

theorem roundValues_a (r : Rom) (kp : RoundKeyPair) (x : HalfBlock) :
    (roundValues r kp x).a = x.extractLsb' 32 32 ^^^ kp.k0 := rfl

theorem roundValues_b (r : Rom) (kp : RoundKeyPair) (x : HalfBlock) :
    (roundValues r kp x).b = x.extractLsb' 0 32 ^^^ kp.k1 := rfl

theorem roundValues_common (r : Rom) (kp : RoundKeyPair) (x : HalfBlock) :
    (roundValues r kp x).common = confusion r ((roundValues r kp x).a ^^^ (roundValues r kp x).b) := rfl

theorem roundValues_g02 (r : Rom) (kp : RoundKeyPair) (x : HalfBlock) :
    (roundValues r kp x).g02 = (roundValues r kp x).common + (roundValues r kp x).a := rfl

/-- Both are `G(a ^ b) + a` (R82). -/
theorem roundValues_g111_eq_g02 (r : Rom) (kp : RoundKeyPair) (x : HalfBlock) :
    (roundValues r kp x).g111 = (roundValues r kp x).g02 := by
  rw [roundValues_g02, roundValues_common]
  rfl

theorem roundValues_g11 (r : Rom) (kp : RoundKeyPair) (x : HalfBlock) :
    (roundValues r kp x).g11 = confusion r ((roundValues r kp x).g02 + (roundValues r kp x).common) := by
  rw [← roundValues_g111_eq_g02]
  rfl

theorem outHigh_roundValues (r : Rom) (kp : RoundKeyPair) (x : HalfBlock) :
    outHigh (roundValues r kp x) =
      confusion r (roundValues r kp x).g02 + (roundValues r kp x).common + (roundValues r kp x).g02 := rfl

/-- F from g02 and common: one evaluation of G for each half, and a third inside common (R82). -/
theorem roundFunction_eq (r : Rom) (kp : RoundKeyPair) (x : HalfBlock) :
    roundFunction r kp x =
      (confusion r (roundValues r kp x).g02 + (roundValues r kp x).common + (roundValues r kp x).g02) ++
        confusion r ((roundValues r kp x).g02 + (roundValues r kp x).common) := by
  rw [roundFunction, outHigh_roundValues, outLow, roundValues_g11]

/-- Settles O26. -/
theorem roundFunctionIdentities : Obligations.RoundFunctionIdentities := fun r kp x =>
  ⟨roundValues_g111_eq_g02 r kp x, roundValues_g11 r kp x, outHigh_roundValues r kp x,
    roundValues_common r kp x ▸ roundFunction_eq r kp x⟩

/-! ### The two halves of the result -/

/-- The number that two words make is base 2^32 with the second as its low digit (R81). -/
theorem toNat_append_words (x y : Word) : (x ++ y).toNat = x.toNat * 2 ^ 32 + y.toNat := by
  rw [BitVec.toNat_append, ← Nat.shiftLeft_add_eq_or_of_lt y.isLt, Nat.shiftLeft_eq]

/-- Settles O27: F's result is the concatenation of its two 32-bit halves. -/
theorem resultHalvesAreIndependent : Obligations.ResultHalvesAreIndependent := fun _ _ _ =>
  ⟨BitVec.extractLsb'_append_eq_left, BitVec.extractLsb'_append_eq_right, toNat_append_words _ _⟩

/-! ### The F command -/

/-- The words of F's half-block, counted in DIN (R85). -/
theorem State.opHalf_word (s : State) {b : Nat} (hb : b + 32 ≤ 64) :
    s.opHalf.extractLsb' b 32 = s.din.extractLsb' b 32 := by
  rw [State.opHalf, BitVec.extractLsb'_extractLsb'_of_le hb]

/-- Settles O17: F's result is its half-block over 64 zero bits, with `r0` and `r1` read from DIN. -/
theorem roundFunctionCompletes : Obligations.RoundFunctionCompletes := by
  intro s a b common g02
  have ha : (roundValues s.rom s.opPair s.opHalf).a = a := by
    rw [roundValues_a, s.opHalf_word (by decide)]
    rfl
  have hb : (roundValues s.rom s.opPair s.opHalf).b = b := by
    rw [roundValues_b, s.opHalf_word (by decide)]
    rfl
  have hcommon : (roundValues s.rom s.opPair s.opHalf).common = common := by rw [roundValues_common, ha, hb]
  have hg02 : (roundValues s.rom s.opPair s.opHalf).g02 = g02 := by rw [roundValues_g02, hcommon, ha]
  have hresult : resultOf .f s = 0#64 ++ roundFunction s.rom s.opPair s.opHalf := resultHalf_eq _
  apply exec_next_of_resultOf
  rw [hresult, roundFunction_eq, hcommon, hg02]

end Sys2Proof.Machine
end

section
/-! PROOFS. The two-round transform (spec/44_feistel_core.md): its closed form (R90) and the DEC command (R96), its inverse (R94),
the order of its rounds (R93), and the same two rounds built by the host from KS and F (95_test_vectors.md P2). -/

namespace Sys2Proof.Machine

open Sys2Proof

/-! ### The closed form -/

/-- Two rounds with round index i and then j, on the halves of the block (R87, R88, R90). -/
theorem finalRound_swapRound (r : Rom) (key : Key) (i j : RoundIndex) (b : Block) :
    finalRound r key j (swapRound r key i b) =
      (rightHalf b ^^^ roundFunction r (keySchedule r key j)
          (leftHalf b ^^^ roundFunction r (keySchedule r key i) (rightHalf b))) ++
        (leftHalf b ^^^ roundFunction r (keySchedule r key i) (rightHalf b)) := by
  rw [finalRound, swapRound, leftHalf_append, rightHalf_append]

/-- Settles O18: DEC's result is the two rounds with index 1 and then 0. -/
theorem decryptCompletes : Obligations.DecryptCompletes := fun s =>
  exec_next_of_resultOf (i := .dec) (finalRound_swapRound s.rom s.key 1 0 s.din)

/-! ### The inverse: DEC is involutions one after another -/

/-- The exchange of the two halves, by which the first round differs from the final one (R87, R88). -/
def swapHalves (b : Block) : Block := rightHalf b ++ leftHalf b

theorem swapHalves_involutive : Function.Involutive swapHalves := fun b => by
  rw [swapHalves, swapHalves, leftHalf_append, rightHalf_append, append_halves]

/-- A round without the exchange undoes itself, since it leaves the half that F reads. -/
theorem finalRound_involutive (r : Rom) (key : Key) (i : RoundIndex) : Function.Involutive (finalRound r key i) := fun b => by
  rw [finalRound, finalRound, leftHalf_append, rightHalf_append, BitVec.xor_assoc, BitVec.xor_self, BitVec.xor_zero,
    append_halves]

theorem swapRound_eq_swapHalves (r : Rom) (key : Key) (i : RoundIndex) (b : Block) :
    swapRound r key i b = swapHalves (finalRound r key i b) := by
  rw [swapHalves, finalRound, leftHalf_append, rightHalf_append, swapRound]

theorem decrypt_eq_involutions (r : Rom) (ct : Block) (key : Key) :
    decrypt r ct key = finalRound r key 0 (swapHalves (finalRound r key 1 ct)) := by
  rw [decrypt, swapRound_eq_swapHalves]

/-- R94's formula is DEC's involutions in the other order. -/
theorem decryptInverse_eq_involutions (r : Rom) (out : Block) (key : Key) :
    decryptInverse r out key = finalRound r key 1 (swapHalves (finalRound r key 0 out)) := by
  rw [← swapRound_eq_swapHalves, finalRound, swapRound, leftHalf_append, rightHalf_append, decryptInverse]

theorem decryptInverse_decrypt (r : Rom) (ct : Block) (key : Key) : decryptInverse r (decrypt r ct key) key = ct := by
  rw [decryptInverse_eq_involutions, decrypt_eq_involutions, finalRound_involutive, swapHalves_involutive, finalRound_involutive]

theorem decrypt_decryptInverse (r : Rom) (out : Block) (key : Key) : decrypt r (decryptInverse r out key) key = out := by
  rw [decrypt_eq_involutions, decryptInverse_eq_involutions, finalRound_involutive, swapHalves_involutive, finalRound_involutive]

/-- Settles O28: R94's formula is an inverse of DEC on both sides. -/
theorem decryptIsBijective : Obligations.DecryptIsBijective := fun r key =>
  have hleft : ∀ ct, decryptInverse r (decrypt r ct key) key = ct := fun ct => decryptInverse_decrypt r ct key
  have hright : ∀ out, decrypt r (decryptInverse r out key) key = out := fun out => decrypt_decryptInverse r out key
  ⟨hleft, hright, Function.bijective_iff_has_inverse.2 ⟨fun out => decryptInverse r out key, hleft, hright⟩⟩

/-! ### The order of the rounds -/

/-- The low half of the two rounds' result is the first round's alone (R90). -/
theorem rightHalf_finalRound_swapRound (r : Rom) (key : Key) (i j : RoundIndex) (b : Block) :
    rightHalf (finalRound r key j (swapRound r key i b)) =
      leftHalf b ^^^ roundFunction r (keySchedule r key i) (rightHalf b) := by
  rw [finalRound_swapRound, rightHalf_append]

/-- Two orders give different results where the first rounds' values of F differ. -/
theorem round_orders_differ {r : Rom} {key : Key} {i j : RoundIndex} {b : Block}
    (h : roundFunction r (keySchedule r key i) (rightHalf b) ≠ roundFunction r (keySchedule r key j) (rightHalf b)) :
    finalRound r key j (swapRound r key i b) ≠ finalRound r key i (swapRound r key j b) := fun heq => by
  have hlow := congrArg rightHalf heq
  rw [rightHalf_finalRound_swapRound, rightHalf_finalRound_swapRound] at hlow
  exact h ((BitVec.xor_right_inj _).1 hlow)

/-- A ROM in which every entry is its own position: `T(t, i) = i` and `RC(j) = j - 1`. -/
def positionRom : Rom :=
  { tables := Vector.replicate 4 ⟨((List.range 256).map (BitVec.ofNat 32)).toArray, by simp⟩
    constants := ⟨((List.range 16).map (BitVec.ofNat 32)).toArray, by simp⟩ }

/-- The pair of round index 0 is (0, 0) there, and that of index 1 is (1, 1). -/
theorem positionRom_rounds_differ :
    roundFunction positionRom (keySchedule positionRom 0 0) (rightHalf 0) ≠
      roundFunction positionRom (keySchedule positionRom 0 1) (rightHalf 0) := by decide

theorem keySchedule_of_zero_tables {r : Rom} (h : ∀ t i, r.T t i = 0) (key : Key) (i : RoundIndex) :
    keySchedule r key i = { k0 := 0, k1 := 0 } := by
  rw [keySchedule_eq, confusion_of_zero_tables h, confusion_of_zero_tables h]

/-- Settles O29: the zero block under key 0 tells the orders apart, and all-zero tables give every round the pair (0, 0). -/
theorem roundOrderIsObservable : Obligations.RoundOrderIsObservable := by
  refine ⟨⟨positionRom, 0, 0, round_orders_differ positionRom_rounds_differ⟩, fun r ct key h => ?_⟩
  have hpair : keySchedule r key 0 = keySchedule r key 1 := by
    rw [keySchedule_of_zero_tables h, keySchedule_of_zero_tables h]
  rw [decrypt, finalRound_swapRound, finalRound_swapRound, hpair]

/-! ### The two rounds built by the host -/

/-- A word of the upper half of a Block (R11). -/
theorem word_of_upper_half (l r : HalfBlock) (b : Nat) : (l ++ r).extractLsb' (64 + b) 32 = l.extractLsb' b 32 := by
  rw [BitVec.extractLsb'_append_eq_of_le (Nat.le_add_right 64 b), Nat.add_sub_cancel_left]

/-- The words of DIN's upper half are F's pair (R85). -/
theorem State.opPair_of_din {s : State} {kp : RoundKeyPair} {x : HalfBlock} (h : s.din = (kp.k0 ++ kp.k1) ++ x) :
    s.opPair = kp := by
  have h0 : s.opPair.k0 = kp.k0 := by
    rw [State.opPair, h]
    exact (word_of_upper_half _ x 32).trans BitVec.extractLsb'_append_eq_left
  have h1 : s.opPair.k1 = kp.k1 := by
    rw [State.opPair, h]
    exact (word_of_upper_half _ x 0).trans BitVec.extractLsb'_append_eq_right
  exact congrArg₂ RoundKeyPair.mk h0 h1

/-- DIN's lower half is F's half-block (R85). -/
theorem State.opHalf_of_din {s : State} {y x : HalfBlock} (h : s.din = y ++ x) : s.opHalf = x := by
  rw [State.opHalf, h, BitVec.extractLsb'_append_eq_right]

theorem exec_dout {i : Instr} {s t : State} (h : exec i s = .next t) : t.dout = resultOf i s := by
  rw [exec_eq] at h
  cases h
  rfl

/-- What the next round finds as it was: KEY and the ROMs (R19, R41). -/
theorem exec_keeps_key_rom {i : Instr} {s t : State} (h : exec i s = .next t) : t.key = s.key ∧ t.rom = s.rom := by
  obtain ⟨hkey, -, -, -, -, hrom, -⟩ := commandFrame i s t h
  exact ⟨hkey, hrom⟩

/-- A round that the host builds: KS, then F on KS's pair and a half-block, leaves the round's value of F in DOUT's lower
half, and KEY and the ROMs as they were. -/
theorem exec_ks_then_f {s s1 t t' : State} {i : RoundIndex} {x : HalfBlock} (hks : exec (.ks i) s = .next s1)
    (hf : exec .f t = .next t') (hdin : t.din = leftHalf s1.dout ++ x) (hkey : t.key = s1.key) (hrom : t.rom = s1.rom) :
    rightHalf t'.dout = roundFunction s.rom (keySchedule s.rom s.key i) x ∧ t'.key = s.key ∧ t'.rom = s.rom := by
  obtain ⟨hkey1, hrom1⟩ := exec_keeps_key_rom hks
  obtain ⟨hkey2, hrom2⟩ := exec_keeps_key_rom hf
  have hks' : s1.dout = resultPair (keySchedule s.rom s.key i) := exec_dout hks
  rw [hks', leftHalf_resultPair] at hdin
  have hdout : rightHalf t'.dout = roundFunction t.rom t.opPair t.opHalf := by
    rw [exec_dout hf, resultOf, rightHalf_resultHalf]
  exact ⟨by rw [hdout, State.opPair_of_din hdin, State.opHalf_of_din hdin, hrom, hrom1],
    hkey2.trans (hkey.trans hkey1), hrom2.trans (hrom.trans hrom1)⟩

/-- Settles O30: the host's two rounds are DEC's closed form. -/
theorem hostTwoRoundsEqualDecrypt : Obligations.HostTwoRoundsEqualDecrypt := by
  intro s s1 s2 s3 s4 s5 l r x hks1 hf1 hx hks0 hf0 hdec
  obtain ⟨hround1, hkey2, hrom2⟩ := exec_ks_then_f hks1 hf1 rfl rfl rfl
  obtain ⟨hround0, hkey4, hrom4⟩ := exec_ks_then_f hks0 hf0 rfl rfl rfl
  have hresult : s5.dout = decrypt s4.rom (l ++ r) s4.key := exec_dout hdec
  have hfirst : x = l ^^^ rightHalf s2.dout := hx
  change s5.dout = (r ^^^ rightHalf s4.dout) ++ x
  rw [hresult, decrypt, finalRound_swapRound, leftHalf_append, rightHalf_append, hround0, hkey4, hrom4, hkey2, hrom2, hfirst,
    hround1]

end Sys2Proof.Machine
end

section
/-! PROOFS. The machine and the spec's model of it (spec/60_exceptions.md R97 to R104): the model faults on an unwritten word or
does what the machine does. With this come where each of the two faults, the host that never does, and the end of a run. -/

namespace Sys2Proof.Machine

open Sys2Proof

/-! ### The spec's model errs toward unprovable -/

/-- The spec's model does what the machine does, or faults on an unwritten word where the machine goes on (R99, R100). -/
theorem modelStep_cases (s : State) :
    modelStep s = modelOutcome (step s) ∨
      ∃ e t, (e = .unwrittenRead ∨ e = .unwrittenOperand) ∧ modelStep s = .fault e ∧ step s = .next t := by
  cases h : unwrittenFault Config.pBase s with
  | none => exact .inl (modelStep_eq_modelOutcome h)
  | some e =>
    obtain ⟨he, t, ht⟩ := unwrittenFault_some h
    exact .inr ⟨e, t, he, modelStep_of_some h, ht⟩

/-- A hazard of the machine is a fault of the model for the same reason (R101, R104). -/
theorem modelStep_of_step_fault {s : State} {e : Fault} (h : step s = .fault e) : modelStep s = .fault e.reason := by
  rcases modelStep_cases s with hm | ⟨_, _, -, -, ht⟩
  · rw [hm, h]
    rfl
  · simp [h] at ht

/-- The machine and the model refuse the same accesses (R36, R97). -/
theorem step_refused_iff_modelStep {s : State} {e : Refusal} : step s = .refused e ↔ modelStep s = .refused e := by
  rcases modelStep_cases s with hm | ⟨_, _, -, hm, ht⟩
  · rw [hm]
    cases step s <;> simp [modelOutcome]
  · simp [hm, ht]

/-- Where the machine goes on, the model does too or meets an unwritten word (R99, R100). -/
theorem modelStep_of_step_next {s t : State} (h : step s = .next t) :
    modelStep s = .next t ∨ modelStep s = .fault .unwrittenRead ∨ modelStep s = .fault .unwrittenOperand := by
  rcases modelStep_cases s with hm | ⟨_, _, rfl | rfl, hm, -⟩
  · exact .inl (by rw [hm, h]; rfl)
  · exact .inr (.inl hm)
  · exact .inr (.inr hm)

/-- Settles O56: the model is the machine but for the two faults on unwritten words. -/
theorem modelErrsTowardUnprovable : Obligations.ModelErrsTowardUnprovable :=
  ⟨fun _ _ h => (modelStep_next_iff.1 h).2, fun _ _ => modelStep_of_step_fault, fun _ _ => step_refused_iff_modelStep,
    fun _ _ => modelStep_of_step_next⟩

/-! ### Where a step faults -/

/-- The core's turn always answers a next state: idle, an illegal completion, or a legal one (R98, R119). -/
theorem coreTurn_answers (s : State) : ∃ t, coreTurn s = .next t := by
  cases hb : s.busy with
  | false => exact ⟨_, coreTurn_idle hb⟩
  | true =>
    cases hd : decode s.cmd with
    | error e => exact ⟨_, coreTurn_illegal hb hd⟩
    | ok i => exact ⟨_, coreTurn_legal hb hd⟩

/-- The core's turn faults in the spec's model exactly where its completion meets an unwritten operand word (R100, R119). -/
theorem modelStep_core_fault_iff {s : State} {ts : List Turn} {e : ModelFault} :
    modelStep (s.withTurns (.core :: ts)) = .fault e ↔ completionFault s = some e := by
  have hu : unwrittenFault Config.pBase (s.withTurns (.core :: ts)) = completionFault s := by
    simp only [unwrittenFault, nextTurn_withTurns_cons, completionFault_withTurns]
  cases hc : completionFault s with
  | some x => simp [modelStep_of_some (hu.trans hc)]
  | none =>
    obtain ⟨t, ht⟩ := coreTurn_answers (s.withTurns ts)
    simp [modelStep_eq_modelOutcome (hu.trans hc), ht, modelOutcome]

/-- With a legal command in flight that fault is the flags' matter alone (R100). -/
theorem modelStep_core_unwrittenOperand_iff {s : State} {i : Instr} (hb : s.busy = true) (hd : decode s.cmd = .ok i)
    (ts : List Turn) : modelStep (s.withTurns (.core :: ts)) = .fault .unwrittenOperand ↔ s.operandsWritten i = false := by
  simp [modelStep_core_fault_iff, completionFault_some_iff, hb, hd]

/-- A read meets a hazard only at DOUT while BUSY = 1 (R101). -/
theorem hostRead_error_inv {s : State} {r : Reg} {e : Fault} (h : hostRead s r = .error e) :
    s.busy = true ∧ ∃ w, r = .dout w := by
  cases r with
  | dout w =>
    cases hb : s.busy with
    | true => exact ⟨rfl, w, rfl⟩
    | false => simp [hostRead_dout_idle hb] at h
  | key | din | cmd | status => cases h

/-- A write meets a hazard only at KEY, DIN or CMD while BUSY = 1 (R101). -/
theorem hostWrite_error_inv {s : State} {r : Reg} {v : Word} {e : Fault} (h : hostWrite s r v = .error e) :
    s.busy = true ∧ (r = .cmd ∨ ∃ w, r = .key w ∨ r = .din w) := by
  cases r with
  | key w | din w | cmd => cases hb : s.busy <;> simp_all [hostWrite]
  | dout | status => cases h

/-- A host step faults on the machine only where the access breaks the BUSY rule (R101, R121). -/
theorem busAccess_fault_breaksBusyRule {base : Nat} {a : Access} {s : State} {e : Fault}
    (h : busAccess base a s = .fault e) : s.busy = true ∧ a.breaksBusyRule base = true := by
  cases ha : admission base a with
  | error x => simp [busAccess, ha] at h
  | ok r =>
    cases a with
    | read n ad =>
      cases hr : hostRead s r with
      | ok v => simp [busAccess_read ha hr] at h
      | error x =>
        obtain ⟨hb, w, rfl⟩ := hostRead_error_inv hr
        exact ⟨hb, by simp only [Access.breaksBusyRule, ha]⟩
    | write n ad v =>
      cases hw : hostWrite s r v with
      | ok t => simp [busAccess, ha, hw] at h
      | error x =>
        obtain ⟨hb, rfl | ⟨w, rfl | rfl⟩⟩ := hostWrite_error_inv hw
        all_goals exact ⟨hb, by simp only [Access.breaksBusyRule, ha]⟩

/-- A step faults on the machine only where the host's access breaks the BUSY rule (R101, R121). -/
theorem step_fault_breaksBusyRule {s : State} {e : Fault} (h : step s = .fault e) :
    ∃ a, s.nextTurn = .host a ∧ s.busy = true ∧ a.breaksBusyRule Config.pBase = true := by
  unfold step takeTurn at h
  split at h
  · obtain ⟨t, ht⟩ := coreTurn_answers s
    simp [ht] at h
  · next ts _ =>
    obtain ⟨t, ht⟩ := coreTurn_answers (s.withTurns ts)
    simp [ht] at h
  · next a ts hn => exact ⟨a, nextTurn_cons hn, busAccess_fault_breaksBusyRule (s := s.withTurns ts) h⟩
  · simp at h

/-- A read that faults on an unwritten word reads one (R99). -/
theorem readsUnwritten_of_readFault {base : Nat} {a : Access} {s : State} {e : ModelFault}
    (h : readFault base a s = some e) : a.readsUnwritten base s = true := by
  obtain ⟨-, n, ad, r, v, rfl, ha, -, hu⟩ := readFault_some_iff.1 h
  simpa only [Access.readsUnwritten, ha] using hu

/-- Settles O53: a fault of the model is one on an unwritten word or a hazard of the machine, and the host's rules exclude
both. -/
theorem wellBehavedHostNeverFaults : Obligations.WellBehavedHostNeverFaults := by
  intro s hhost hcore e hm
  cases hu : unwrittenFault Config.pBase s with
  | some x =>
    cases hn : s.nextTurn with
    | host a =>
      have hread := readsUnwritten_of_readFault (by simpa only [unwrittenFault, hn] using hu)
      simp [(hhost a hn).2] at hread
    | core =>
      obtain ⟨-, hb, i, hd, hw⟩ := completionFault_some_iff.1 (by simpa only [unwrittenFault, hn] using hu)
      simp [hcore hn hb i hd] at hw
    | reset => simp [unwrittenFault, hn] at hu
  | none =>
    rw [modelStep_eq_modelOutcome hu] at hm
    cases hs : step s with
    | next t => simp [hs, modelOutcome] at hm
    | refused r => simp [hs, modelOutcome] at hm
    | fault x =>
      obtain ⟨a, hn, hb, hbreak⟩ := step_fault_breaksBusyRule hs
      simp [(hhost a hn).1 hb] at hbreak

/-! ### A fault ends the run -/

/-- A step leaves a run whose record holds a fault as it is (R102). -/
theorem advance_of_faulted {r : ModelRun} {e : ModelFault} (h : r.record = .faulted e) : r.advance = r := by
  simp only [ModelRun.advance, h]

/-- Settles O39. -/
theorem faultEndsTheRun : Obligations.FaultEndsTheRun := by
  refine ⟨fun n r e h => ?_, fun e => by cases e <;> simp⟩
  induction n with
  | zero => rfl
  | succ n ih => rw [ModelRun.advanceN, advance_of_faulted h, ih]

/-- A step of the spec's model that faults is recorded (R102). -/
theorem record_of_fault {s : State} {e : ModelFault} (h : modelStep s = .fault e) :
    (ModelRun.advanceN 1 { state := s, record := .empty }).record = .faulted e := by
  simp only [ModelRun.advanceN, ModelRun.advance, h]

/-- A fault met right after the issue of a command from the reset state is recorded (R118, R102). -/
theorem record_of_fault_after_issue {c : Word} {us : List Turn} {e : ModelFault}
    (h : modelStep ((State.reset.issue c).withTurns us) = .fault e) :
    (ModelRun.advanceN 2 { state := State.reset.withTurns (wr Config.pBase .cmd c :: us), record := .empty }).record =
      .faulted e := by
  rw [advanceN_succ (modelStep_wr_ok (u := State.reset.issue c) rfl us)]
  exact record_of_fault h

/-- Settles O40: UNWRITTEN_READ is met at once by a read of KEY0, and the other four right after the issue of G. -/
theorem everyFaultIsReachable : Obligations.EveryFaultIsReachable := by
  intro e
  cases e with
  | unwrittenRead => exact ⟨[rd Config.pBase (.key 0)], 1, record_of_fault (modelStep_rd_unwritten rfl rfl [])⟩
  | unwrittenOperand =>
    have hw : (State.reset.issue (encode .g)).operandsWritten .g = false := rfl
    have hm := (modelStep_core_unwrittenOperand_iff (s := State.reset.issue (encode .g)) rfl (encodeThenDecode .g) []).2 hw
    exact ⟨_, 2, record_of_fault_after_issue hm⟩
  | hazardCmdWrite =>
    have hw : hostWrite ((State.reset.issue (encode .g)).withTurns []) .cmd 0 = .error .hazardCmdWrite := rfl
    exact ⟨_, 2, record_of_fault_after_issue (modelStep_of_step_fault (step_wr_hazard hw))⟩
  | hazardOperandWrite =>
    have hw : hostWrite ((State.reset.issue (encode .g)).withTurns []) (.key 0) 0 = .error .hazardOperandWrite := rfl
    exact ⟨_, 2, record_of_fault_after_issue (modelStep_of_step_fault (step_wr_hazard hw))⟩
  | hazardDoutRead =>
    have hr : hostRead (State.reset.issue (encode .g)) (.dout 0) = .error .hazardDoutRead := hostRead_dout_busy rfl 0
    exact ⟨_, 2, record_of_fault_after_issue (modelStep_rd_hazard hr [])⟩

end Sys2Proof.Machine
end

section
/-! PROOFS. Completions and reads on unwritten words (spec/60_exceptions.md R99, R100), the completion of an illegal command
(R98), and the hazards while BUSY = 1 (R101). -/

namespace Sys2Proof.Machine

open Sys2Proof

/-! ### Unwritten operand words -/

theorem keyWords_eq_map : keyWords = (List.finRange 4).map .key := by decide

theorem dinWords_eq_map : dinWords = (List.finRange 4).map .din := by decide

/-- An operand word of the command is unwritten (R100). -/
theorem operandsWritten_eq_false_iff {s : State} {i : Instr} :
    s.operandsWritten i = false ↔ ∃ o ∈ operandWords i, s.written o = false := by
  simp [State.operandsWritten]

theorem exists_keyWord_unwritten_iff {s : State} :
    (∃ o ∈ keyWords, s.written o = false) ↔ ∃ w : Fin 4, s.wrKey[w] = false := by
  simp [keyWords_eq_map, State.written]

theorem exists_dinWord_unwritten_iff {s : State} :
    (∃ o ∈ dinWords, s.written o = false) ↔ ∃ w : Fin 4, s.wrDin[w] = false := by
  simp [dinWords_eq_map, State.written]

/-- Settles O19: the operand words of each command are R100's list. -/
theorem unwrittenOperandFaultsExactly : Obligations.UnwrittenOperandFaultsExactly := by
  intro i s ts hb hd
  refine ⟨?_, fun e he => (completionFault_some_iff.1 (modelStep_core_fault_iff.1 he)).1, fun e he => ?_,
    _, step_core_legal hb hd ts⟩
  · rw [modelStep_core_unwrittenOperand_iff hb hd, operandsWritten_eq_false_iff]
    cases i with
    | tlu | g => simp [operandWords, State.written]
    | ks => exact exists_keyWord_unwritten_iff
    | f => exact exists_dinWord_unwritten_iff
    | dec =>
      simp only [operandWords, List.mem_append, or_and_right, exists_or, exists_dinWord_unwritten_iff,
        exists_keyWord_unwritten_iff]
  · have hstep := step_refused_iff_modelStep.2 he
    rw [step_core_legal hb hd] at hstep
    cases hstep

/-- Settles O58: the machine commits the command's own result. -/
theorem unwrittenOperandOnHardware : Obligations.UnwrittenOperandOnHardware := by
  intro s ts hm
  obtain ⟨-, hb, i, hd, -⟩ := completionFault_some_iff.1 (modelStep_core_fault_iff.1 hm)
  refine ⟨i, resultOf i s, hd, step_core_legal hb hd ts, ?_⟩
  cases i with
  | tlu | g => exact resultWord_eq _
  | f => exact resultHalf_eq _
  | ks | dec => rfl

/-! ### Unwritten reads -/

/-- A read faults UNWRITTEN_READ in the spec's model exactly where no hazard comes first and its word is unwritten (R99, R104). -/
theorem modelStep_rd_unwrittenRead_iff {s : State} {r : Reg} {ts : List Turn} :
    modelStep (s.withTurns (rd Config.pBase r :: ts)) = .fault .unwrittenRead ↔
      (∃ v, hostRead s r = .ok v) ∧ s.unwritten r = true := by
  cases hv : hostRead s r with
  | ok v => simp [modelStep_rd_ok hv]
  | error e => cases e <;> simp [modelStep_rd_hazard hv, Fault.reason]

/-- Settles O57: only a read of DOUT can meet a hazard, and CMD and STATUS have no wr_ flag. -/
theorem unwrittenReadFaultsExactly : Obligations.UnwrittenReadFaultsExactly := by
  intro s r ts
  rw [modelStep_rd_unwrittenRead_iff]
  constructor
  · cases r with
    | key | din | cmd | status => simp [hostRead, State.unwritten]
    | dout => cases hb : s.busy <;> simp [hostRead, State.unwritten, hb]
  · rintro ⟨⟨v, hv⟩, -⟩
    exact ⟨v, by rw [step_rd, hostRead_withTurns, hv]; rfl⟩

/-! ### Illegal commands and hazards -/

/-- Settles O33: of the effects of a step, only `legal` and `reset` clear ERR. -/
theorem illegalCommandCompletes : Obligations.IllegalCommandCompletes := by
  refine ⟨fun s ts hb ⟨_, he⟩ => step_core_illegal hb he ts, fun i s t h => ?_, fun s t h hs ht => ?_⟩
  · rw [exec_eq] at h
    cases h
    rfl
  · cases stepEffect_of_step h with
    | reset turn => exact .inl turn
    | legal i turn busy word => exact .inr ⟨turn, busy, i, word⟩
    | illegal => simp at ht
    | idle | read | writeKey | writeDin | issue | ignored => simp [hs] at ht

/-- Settles O35: the clauses of R37 and R38 at BUSY = 1. -/
theorem hazardFaultsWhileBusy : Obligations.HazardFaultsWhileBusy := by
  intro s v w ts hb
  obtain ⟨readKey, readDin, readDout, readCmd, readStatus⟩ := hostReadDelivers s ts
  obtain ⟨writeKey, writeDin, writeDout, writeCmd, writeStatus⟩ := hostWriteDoes s ts v
  exact ⟨writeCmd.trans (if_pos hb), (writeKey w).1 hb, (writeDin w).1 hb, (readDout w).trans (if_pos hb), ⟨_, readKey w⟩,
    ⟨_, readDin w⟩, ⟨_, readCmd⟩, ⟨_, readStatus⟩, writeDout w, writeStatus⟩

/-- STATUS reads 3 with a command in flight and the old error still visible (R23). -/
theorem statusWord_busy_err : statusWord true true = 0x00000003#32 := by decide

/-- Settles O36: the issue keeps ERR, and the completion clears it. -/
theorem errStaysVisibleUntilCompletion : Obligations.ErrStaysVisibleUntilCompletion := by
  intro s i ts hb he
  have hstatus : (s.issue (encode i)).status = 0x00000003#32 := by simp [State.status_eq, he, statusWord_busy_err]
  have hrun := runsTo_wr_cmd (v := encode i) hb (runsTo_rd_status (ts := .core :: ts) (runsTo_zero _))
  rw [hstatus] at hrun
  have hcore := step_core_legal (s := (s.issue (encode i)).receive 0x00000003#32) rfl (encodeThenDecode i) ts
  refine ⟨_, _, hrun.1, rfl, he, hcore, rfl, rfl, ?_⟩
  rw [exec_eq, State.withTurns_withTurns, resultOf_withTurns]
  rfl

end Sys2Proof.Machine
end

section
/-! PROOFS. The source's two errors (spec/60_exceptions.md R103): the check of a configuration given as lists, and the width
check of host software. -/

namespace Sys2Proof.Machine

open Sys2Proof

/-- An accepted configuration's lists are the ROM's tables and constants, entry by entry (R24, R25, R103). -/
theorem ofLists_ok_inv {ts : List (List Word)} {cs : List Word} {r : Rom} (h : Rom.ofLists ts cs = .ok r) :
    ts = r.tables.toList.map Vector.toList ∧ cs = r.constants.toList := by
  unfold Rom.ofLists at h
  split at h
  · split_ifs at h
    cases h
    exact ⟨rfl, rfl⟩
  · cases h

/-- Four tables of 256 Words and 16 constants are accepted (R103, Assumption 13). -/
theorem ofLists_of_lengths {ts : List (List Word)} {cs : List Word} (hts : ts.length = 4)
    (ht : ∀ t ∈ ts, t.length = 256) (hcs : cs.length = 16) : ∃ r, Rom.ofLists ts cs = .ok r := by
  obtain ⟨t0, t1, t2, t3, rfl⟩ : ∃ t0 t1 t2 t3, ts = [t0, t1, t2, t3] := by
    match ts, hts with
    | [t0, t1, t2, t3], _ => exact ⟨t0, t1, t2, t3, rfl⟩
  simp only [List.forall_mem_cons] at ht
  obtain ⟨h0, h1, h2, h3, -⟩ := ht
  simp [Rom.ofLists, h0, h1, h2, h3, hcs]

/-- Settles O54: the lists of an accepted configuration have the lengths of the ROM's vectors, and their entries. -/
theorem malformedTablesRefused : Obligations.MalformedTablesRefused := by
  refine ⟨fun ts cs => ⟨?_, fun ⟨hts, ht, hcs⟩ => ofLists_of_lengths hts ht hcs⟩, ?_⟩
  · rintro ⟨r, hr⟩
    obtain ⟨rfl, rfl⟩ := ofLists_ok_inv hr
    simp
  · intro ts cs r hr
    obtain ⟨rfl, rfl⟩ := ofLists_ok_inv hr
    refine ⟨fun t i => ⟨(r.tables[t.toNat]'t.isLt).toList, ?_, ?_⟩, fun j => ?_⟩
    · simp [t.isLt]
    · simp [Rom.T, i.isLt]
    · have hj := j.property
      have hlt : j.val - 1 < 16 := by omega
      simp [Rom.RC, hlt]

/-- Settles O55: below 2^128 the reduction of `BitVec.ofNat` changes nothing. -/
theorem outOfRangeNumbersRejected : Obligations.OutOfRangeNumbersRejected := fun n =>
  ⟨fun h => ⟨BitVec.ofNat 128 n, if_pos h, Nat.mod_eq_of_lt h⟩, fun h => if_neg (Nat.not_lt.2 h)⟩

end Sys2Proof.Machine
end

section
/-! PROOFS. The life cycle of a command (spec/70_reset_and_hazards.md): issue (R118), the core's turn with and without a
command in flight (R116, R119), and that every issued command completes (R120). -/

namespace Sys2Proof.Machine

open Sys2Proof

/-- With no turn listed the core moves (Assumption 6). -/
theorem step_of_no_turns {s : State} (h : s.turns = []) : step s = coreTurn s := by
  simp only [step, takeTurn, h]

/-- Settles O31. -/
theorem issueSetsCmdAndBusyOnly : Obligations.IssueSetsCmdAndBusyOnly := fun _ v ts hb =>
  step_wr_cmd hb v ts

/-! ### The core's turn -/

/-- The core's turn with a legal command in flight is that command's meaning (R119). -/
theorem coreTurn_eq_exec {s : State} {i : Instr} (hb : s.busy = true) (hd : decode s.cmd = .ok i) :
    coreTurn s = exec i s :=
  (coreTurn_legal hb hd).trans (exec_eq i s).symm

/-- Settles O32: the step is the core's turn, listed or not. -/
theorem stepRunsDecodedCommand : Obligations.StepRunsDecodedCommand := fun s _ hb hd =>
  ⟨fun ts => (step_core s ts).trans (coreTurn_eq_exec hb hd), fun hn => (step_of_no_turns hn).trans (coreTurn_eq_exec hb hd)⟩

/-- Settles O34: the step is the core's turn, listed or not, and the core is idle. -/
theorem coreIdlesWithoutCommand : Obligations.CoreIdlesWithoutCommand := fun s hb =>
  ⟨fun ts => (step_core s ts).trans (coreTurn_idle hb), fun hn => (step_of_no_turns hn).trans (coreTurn_idle hb)⟩

/-! ### Every issued command completes -/

/-- With a command in flight, legal or not, the core's turn completes it and leaves the host's side as it was (R98, R119). -/
theorem coreTurn_completes {s : State} (hb : s.busy = true) :
    ∃ t, coreTurn s = .next t ∧ t.busy = false ∧ t.turns = s.turns ∧ t.received = s.received := by
  cases hd : decode s.cmd with
  | error e => exact ⟨_, coreTurn_illegal hb hd, rfl, rfl, rfl⟩
  | ok i => exact ⟨_, coreTurn_legal hb hd, rfl, rfl, rfl⟩

/-- Settles O51: the polls leave the core as it was, and no turn is listed after them, so the core's turn is next. -/
theorem polledCommandCompletes : Obligations.PolledCommandCompletes := by
  intro n s hb
  obtain ⟨hpolls, -⟩ := runsTo_polls n s []
  rw [List.append_nil] at hpolls
  obtain ⟨t, hcore, hbusy, hturns, hreceived⟩ :=
    coreTurn_completes (s := (s.receiveAll (List.replicate n s.status)).withTurns []) hb
  have hlast := run_succ (n := 0) ((step_of_no_turns rfl).trans hcore)
  exact ⟨t, (run_add hpolls).trans hlast, hbusy, hturns, hreceived⟩

end Sys2Proof.Machine
end
